-- ==== Sys2Proof/Word.lean ====
section
/-! DEFINITION. The word types of the block and the plainest arithmetic on words. Every value of the spec is an
unsigned natural number of a stated width (spec/00_scope.md R11). A width that the spec fixes is a `BitVec`; a width
that is an argument of the instance (W, InputBits, OutputBits, the length n of a descriptor) leaves the value a `Nat`. -/

namespace Sys2Proof

/-- One byte of the image, and the width of FRAMEBIT's `byte` input (spec/10_state.md R22). -/
abbrev Byte := BitVec 8

/-- A Field Descriptor: the ordered list of bit positions of one field, least significant place first
(spec/30_encoding.md R47, R48). -/
abbrev Descriptor := List Nat

/-- `trunc_N(v)` of Table N1 (spec/00_scope.md R12): `v mod 2^N`. Bit `k` of a natural `v`, "(v div 2^k) mod 2"
(R10), is Lean's own `v.testBit k`. -/
def trunc (n v : Nat) : Nat := v % 2 ^ n

end Sys2Proof
end

