-- ==== Sys2Proof/Config.lean ====
section
/-! DEFINITION. The configuration record: the constants fixed when the block is built (spec/00_scope.md R7, R8 and
Table S1 of spec/10_state.md R24). It is an argument of the definitions, never state (R7). The values of this clock
variant stand in `Sys2Proof.Machine.clock` (Machine/Build.lean). -/

namespace Sys2Proof

/-- The six descriptors of Table S1 (spec/10_state.md R24): the two fields of the address word (spec/30_encoding.md
R51) and the four fields of the output word (R53). -/
structure Layout where
  serial       : Descriptor
  count        : Descriptor
  feedbackLow  : Descriptor
  feedbackHigh : Descriptor
  minuteBit    : Descriptor
  hourBit      : Descriptor
deriving DecidableEq, Repr

/-- The names of the six descriptors, as Table S1 has them. -/
inductive LayoutField where
  | serial | count | fblo | fbhi | minbit | hourbit
deriving DecidableEq, Repr

/-- The constants of Table S1 (spec/10_state.md R24). -/
structure Config where
  inputBits     : Nat
  outputBits    : Nat
  defaultOutput : Nat
  phaseOffset   : Nat
  layout        : Layout
deriving DecidableEq, Repr

/-- The number of words of the ROM, `2^InputBits` (spec/20_memory.md R30). -/
def Config.wordCount (cfg : Config) : Nat := 2 ^ cfg.inputBits

/-- The number of bytes of one word, `OutputBits/8` (spec/20_memory.md R34, R37). -/
def Config.wordBytes (cfg : Config) : Nat := cfg.outputBits / 8

end Sys2Proof
end

