-- ==== Sys2Proof/Machine/Build.lean ====
section
/-! DEFINITION. The constants of this clock variant: the values of Table P1 (spec/00_scope.md R8) and Table S1
(spec/10_state.md R24). Nobody audited them against the repository (R6): UNVERIFIED, log entry 7. -/

namespace Sys2Proof.Machine

/-- The layout of this clock (spec/30_encoding.md R51, R53). -/
def clockLayout : Layout where
  serial := [0, 1, 2]
  count := [3, 4, 5, 6, 7, 8, 9, 10, 11, 12]
  feedbackLow := [0]
  feedbackHigh := [1]
  minuteBit := [2]
  hourBit := [3]

/-- The configuration of this clock (spec/00_scope.md R8): 13, 8, 0x00, 480. -/
def clock : Config where
  inputBits := 13
  outputBits := 8
  defaultOutput := 0
  phaseOffset := 480
  layout := clockLayout

/-- `CYCLE`: 12 hours of 60 minutes (spec/00_scope.md R8). -/
def cycle : Nat := 720

end Sys2Proof.Machine
end

