-- ==== Sys2Proof/Machine/Operands.lean ====
section
/-! DEFINITION. The four operand assemblies of spec/30_encoding.md R59: gathering a field, scattering a field, packing two
digits in a byte, cutting the 10 bit counter into two bytes; and the bytes of a word in the image. -/

namespace Sys2Proof.Machine

/-- The loop of spec/40_codec.md R65, from list index `k` on: `val <- val | (src[P[k]] << k)`. -/
def gatherFrom (src : Nat) : Nat → Descriptor → Nat → Nat
  | _, [], val => val
  | k, p :: ps, val => gatherFrom src (k + 1) ps (val ||| ((src.testBit p).toNat <<< k))

/-- DECODE as a formula (spec/40_codec.md R65): `val[k] = src[P[k]]`, starting from 0 (spec/10_state.md R29). Total on
every list (R73). -/
def gather (p : Descriptor) (src : Nat) : Nat := gatherFrom src 0 p 0

/-- The loop of spec/40_codec.md R66, from list index `k` on: `dst_out <- dst_out | (val[k] << P[k])`. -/
def scatterFrom (val : Nat) : Nat → Descriptor → Nat → Nat
  | _, [], dst => dst
  | k, p :: ps, dst => scatterFrom val (k + 1) ps (dst ||| ((val.testBit k).toNat <<< p))

/-- ENCODE as a formula (spec/40_codec.md R66): ORs `val[k]` into position `P[k]`, clears nothing (R67) and uses no bit
of `val` at or above `P.length` (R128). Total on every list (R73). -/
def scatter (p : Descriptor) (dst val : Nat) : Nat := scatterFrom val 0 p dst

/-- The packed-digit byte, `units | (tens << 4)` (spec/30_encoding.md R55, spec/42_rom_word.md R86). -/
def packDigits (tens units : BitVec 4) : Byte := units.setWidth 8 ||| (tens.setWidth 8 <<< 4)

/-- `fbLow = n[7:0]` (spec/30_encoding.md R56). -/
def feedbackLowByte (n : BitVec 10) : Byte := n.extractLsb' 0 8

/-- `fbHigh = zext_8(n[9:8])` (spec/30_encoding.md R56). -/
def feedbackHighByte (n : BitVec 10) : Byte := (n.extractLsb' 8 2).setWidth 8

/-- The `n` bytes of a word, most significant byte first (spec/20_memory.md R35). -/
def bigEndian (n q : Nat) : List Byte := (List.range n).map fun j => BitVec.ofNat 8 (q >>> (8 * (n - 1 - j)))

end Sys2Proof.Machine
end

