-- ==== Sys2Proof/Syntax.lean ====
section
/-! DEFINITION. The operations that a select code names: one constructor per row of spec/opcode_table.json
(Table E5 of spec/30_encoding.md R58), each with the operands of Table E4 (R57) at the port widths of
spec/10_state.md R20 to R23. GENERATE has no select code (R58): it is the Enumerator's work (Machine/Generate.lean). -/

namespace Sys2Proof

/-- One operation as the caller presents it. -/
inductive Instr where
  /-- 000 DECODE: static width `w` and descriptor `p`, input `src` of `w` bits (spec/10_state.md R20). -/
  | decode (w : Nat) (p : Descriptor) (src : Nat)
  /-- 001 ENCODE: static width `w` and descriptor `p`, inputs `dst` of `w` bits and `val`, of which only the
  low `p.length` bits are used (spec/10_state.md R21). -/
  | encode (w : Nat) (p : Descriptor) (dst val : Nat)
  /-- 010 FRAMEBIT: `byte` of 8 bits, `pos` of `POS_W` = 4 bits (spec/10_state.md R22). -/
  | framebit (byte : Byte) (pos : BitVec 4)
  /-- 011 TIMEDIGITS: `i` of 10 bits (spec/10_state.md R23). -/
  | timedigits (i : BitVec 10)
  /-- 100 BCDPACK: `tens` and `units` of 4 bits each (spec/10_state.md R23). -/
  | bcdpack (tens units : BitVec 4)
  /-- 101 NEXTCOUNT: `c` of 10 bits (spec/10_state.md R23). -/
  | nextcount (c : BitVec 10)
  /-- 110 ROMWORD: the address `a`, `InputBits` wide (spec/10_state.md R23). -/
  | romword (a : Nat)
  /-- 111: reserved by the spec, refused by a model (spec/30_encoding.md R60 (e)). -/
  | reserved
deriving DecidableEq, Repr

end Sys2Proof
end

