-- ==== Sys2Proof/Decode.lean ====
section
/-! DEFINITION. Reading an operation from the bytes in which the caller presents it, and writing one as bytes.

THE SPEC GIVES THREE BITS ONLY: the select code `op[2:0]` (Table E5 of spec/30_encoding.md R58; mask 0x7 in
spec/opcode_table.json). How a caller hands over the operands is not in the spec (R58, R64): the rest of this format is
the model's own, DESIGN CHOICE, log entries 1 and 2. The select code is the low three bits of the first byte (the other
five are not decoded, as the table's mask says); the operands follow in the order of the constructor, each a number
in base 128, least significant digit first, a digit with 128 added where another follows. W and n are written with 0 and
1 exchanged, so that operands of zeros present the smallest legal instance, W = 1 and P = [0]. -/

namespace Sys2Proof

/-- Why bytes present no operation; all are refusals of the model's own format, safe. -/
inductive Reject where
  /-- Nothing is presented. -/
  | nothingPresented
  /-- The bytes end inside an operand. -/
  | truncated
  /-- A number ends in a digit 0 after another digit, which no encoder writes. -/
  | overlongNumber
  /-- A number that its port has too few wires for. -/
  | operandTooWide
deriving DecidableEq, Repr

/-- One number in base 128, and the bytes after it. -/
def readNumber : List Byte → Except Reject (Nat × List Byte)
  | [] => .error .truncated
  | b :: rest =>
    if b.toNat < 128 then .ok (b.toNat, rest)
    else match readNumber rest with
      | .error e => .error e
      | .ok (v, rest') => if v = 0 then .error .overlongNumber else .ok (b.toNat - 128 + 128 * v, rest')

/-- Reads a number and passes it on; the one place where an operand's failure ends the reading. -/
def readNumberThen {α : Type} (bs : List Byte) (use : Nat → List Byte → Except Reject α) : Except Reject α :=
  match readNumber bs with
  | .error e => .error e
  | .ok (v, rest) => use v rest

/-- Reads a number for a port of `n` bits; a wider one is rejected by name (DESIGN CHOICE, log entry 6). -/
def readPortThen {α : Type} (n : Nat) (bs : List Byte) (use : BitVec n → List Byte → Except Reject α) :
    Except Reject α :=
  readNumberThen bs fun v rest => if v < 2 ^ n then use (BitVec.ofNat n v) rest else .error .operandTooWide

/-- Reads `n` numbers, the positions of a descriptor in their listed order. -/
def readMany : Nat → List Byte → Except Reject (List Nat × List Byte)
  | 0, bs => .ok ([], bs)
  | n + 1, bs =>
    match readNumber bs with
    | .error e => .error e
    | .ok (v, rest) =>
      match readMany n rest with
      | .error e => .error e
      | .ok (vs, rest') => .ok (v :: vs, rest')

/-- 0 and 1 exchanged: how W and n are written. -/
def oneFirst (v : Nat) : Nat := if v = 0 then 1 else if v = 1 then 0 else v

/-- The static part of a format C request (spec/30_encoding.md R58): the width and the descriptor. -/
def readInstanceThen {α : Type} (bs : List Byte) (use : Nat → Descriptor → List Byte → Except Reject α) :
    Except Reject α :=
  readNumberThen bs fun w bs =>
  readNumberThen bs fun n bs =>
  match readMany (oneFirst n) bs with
  | .error e => .error e
  | .ok (p, rest) => use (oneFirst w) p rest

/-- The operands of the operation with select code `op` (Table E5 of spec/30_encoding.md R58). -/
def readOperands (op : Nat) (bs : List Byte) : Except Reject (Instr × List Byte) :=
  match op with
  | 0 => readInstanceThen bs fun w p bs => readNumberThen bs fun src bs => .ok (.decode w p src, bs)
  | 1 => readInstanceThen bs fun w p bs => readNumberThen bs fun dst bs => readNumberThen bs fun val bs =>
      .ok (.encode w p dst val, bs)
  | 2 => readPortThen 8 bs fun byte bs => readPortThen 4 bs fun pos bs => .ok (.framebit byte pos, bs)
  | 3 => readPortThen 10 bs fun i bs => .ok (.timedigits i, bs)
  | 4 => readPortThen 4 bs fun tens bs => readPortThen 4 bs fun units bs => .ok (.bcdpack tens units, bs)
  | 5 => readPortThen 10 bs fun c bs => .ok (.nextcount c, bs)
  | 6 => readNumberThen bs fun a bs => .ok (.romword a, bs)
  | _ => .ok (.reserved, bs)

/-- The select code of a request: the low three bits of its first byte (spec/30_encoding.md R58). -/
def selectCode (b : Byte) : Nat := b.toNat % 8

/-- The operation that the bytes begin with, and the bytes after it. Total: bytes that present none are rejected by
name. -/
def decodeInstr : List Byte → Except Reject (Instr × List Byte)
  | [] => .error .nothingPresented
  | b :: rest => readOperands (selectCode b) rest

/-- A number in base 128, by as many digits as it needs; `v` bounds the digits. -/
def numberDigits : Nat → Nat → List Byte
  | 0, v => [BitVec.ofNat 8 v]
  | f + 1, v => if v < 128 then [BitVec.ofNat 8 v] else BitVec.ofNat 8 (128 + v % 128) :: numberDigits f (v / 128)

/-- One number as bytes. -/
def writeNumber (v : Nat) : List Byte := numberDigits v v

/-- Numbers as bytes, one after another. -/
def writeMany (vs : List Nat) : List Byte := vs.flatMap writeNumber

/-- The static part of a format C request. -/
def writeInstance (w : Nat) (p : Descriptor) : List Byte :=
  writeNumber (oneFirst w) ++ writeNumber (oneFirst p.length) ++ writeMany p

/-- The select codes of Table E5 (spec/30_encoding.md R58). -/
def Instr.select : Instr → Nat
  | .decode _ _ _ => 0
  | .encode _ _ _ _ => 1
  | .framebit _ _ => 2
  | .timedigits _ => 3
  | .bcdpack _ _ => 4
  | .nextcount _ => 5
  | .romword _ => 6
  | .reserved => 7

/-- The operands of an operation as bytes. -/
def writeOperands : Instr → List Byte
  | .decode w p src => writeInstance w p ++ writeNumber src
  | .encode w p dst val => writeInstance w p ++ writeNumber dst ++ writeNumber val
  | .framebit byte pos => writeNumber byte.toNat ++ writeNumber pos.toNat
  | .timedigits i => writeNumber i.toNat
  | .bcdpack tens units => writeNumber tens.toNat ++ writeNumber units.toNat
  | .nextcount c => writeNumber c.toNat
  | .romword a => writeNumber a
  | .reserved => []

/-- The encoder: the bytes that present an operation. -/
def encodeInstr (i : Instr) : List Byte := BitVec.ofNat 8 i.select :: writeOperands i

/-- The `n` low bytes of a number, the lowest first: bit 0 of `w` is bit 0 of the first byte, as
spec/opcode_table.json numbers the bits. -/
def lowBytes : Nat → Nat → List Byte
  | 0, _ => []
  | n + 1, w => BitVec.ofNat 8 w :: lowBytes n (w / 256)

/-- A request of `nbits` bits `w`, followed by operand bytes of zeros. -/
def tableBytes (nbits w : Nat) : List Byte := lowBytes ((nbits + 7) / 8) w ++ List.replicate 16 0#8

/-- The operation the decoder reads from the bits `w` of an opcode-table row. -/
def decodeTableWord (nbits w : Nat) : Option Instr :=
  match decodeInstr (tableBytes nbits w) with
  | .ok (i, _) => some i
  | .error _ => none

end Sys2Proof
end

