-- ==== Sys2Proof/WellFormed.lean ====
section
/-! DEFINITION. The static checks: a descriptor for its width (spec/30_encoding.md R49), the configuration
(spec/70_reset_and_hazards.md R118, steps 1 and 2) and an operation whose caller meets every obligation of
spec/70_reset_and_hazards.md section 2. -/

namespace Sys2Proof

/-- R49: a descriptor is well-formed for width `w` when (a) it has a position, (b) every position is below `w`,
(c) the positions are pairwise distinct. -/
def descriptorWf (w : Nat) (p : Descriptor) : Bool :=
  !p.isEmpty && p.all (fun k => decide (k < w)) && decide p.Nodup

/-- What the startup check finds wrong, with the offending value (spec/60_exceptions.md R101, R103 (b), R105). -/
inductive BuildDefect where
  /-- `OutputBits` is neither 8 nor 16. -/
  | outputBits (value : Nat)
  /-- `InputBits` is not positive, or is below the 13 that the address layout needs. -/
  | inputBits (value : Nat)
  /-- A descriptor of the layout is not well-formed for the width of its word, or has not the number of positions
  that Table S1 gives it. -/
  | descriptor (field : LayoutField) (w : Nat) (p : Descriptor)
deriving DecidableEq, Repr

/-- The least `InputBits` that the address layout of spec/30_encoding.md R50 admits: bits 0 to 12 (spec/10_state.md R24).
DESIGN CHOICE, log entry 23: the bound holds whatever layout the configuration record carries. -/
def minInputBits : Nat := 13

/-- One descriptor of the layout, held against R49 and against the number of positions that Table S1 of
spec/10_state.md R24 gives it. -/
def layoutDefect (field : LayoutField) (w n : Nat) (p : Descriptor) : Option BuildDefect :=
  if descriptorWf w p && p.length == n then none else some (.descriptor field w p)

/-- Step 2 of spec/70_reset_and_hazards.md R118: every descriptor against the width of its word (R51, R53). The
lengths are SERIAL_W = 3, COUNT_W = 10 and one position for each output field (spec/10_state.md R24). DESIGN CHOICE, log
entry 14: of several illegal descriptors the one reported is the first in the order of Table S1. -/
def Layout.defect (l : Layout) (inputBits outputBits : Nat) : Option BuildDefect :=
  (layoutDefect .serial inputBits 3 l.serial).or <|
  (layoutDefect .count inputBits 10 l.count).or <|
  (layoutDefect .fblo outputBits 1 l.feedbackLow).or <|
  (layoutDefect .fbhi outputBits 1 l.feedbackHigh).or <|
  (layoutDefect .minbit outputBits 1 l.minuteBit).or <|
  layoutDefect .hourbit outputBits 1 l.hourBit

/-- The startup check in the order of spec/70_reset_and_hazards.md R118: the constants, then the descriptors. The
causes are the complete list of spec/60_exceptions.md R101. DESIGN CHOICE, log entry 14: of two illegal constants
`OutputBits` is the one reported. -/
def Config.defect (cfg : Config) : Option BuildDefect :=
  if cfg.outputBits ≠ 8 ∧ cfg.outputBits ≠ 16 then some (.outputBits cfg.outputBits)
  else if cfg.inputBits < minInputBits then some (.inputBits cfg.inputBits)
  else cfg.layout.defect cfg.inputBits cfg.outputBits

/-- A configuration that the startup check accepts. -/
def Config.wf (cfg : Config) : Bool := cfg.defect.isNone

/-- The caller's obligations: a well-formed instance and operands that its ports can hold (spec/40_codec.md R69),
a frame position 0 to 9 (spec/70_reset_and_hazards.md R121), a minute of the cycle (R120), an address of `InputBits`
bits (spec/20_memory.md R40), and no reserved code. -/
def Instr.wf (cfg : Config) : Instr → Bool
  | .decode w p src => descriptorWf w p && decide (src < 2 ^ w)
  | .encode w p dst _ => descriptorWf w p && decide (dst < 2 ^ w)
  | .framebit _ pos => decide (pos.toNat ≤ 9)
  | .timedigits i => decide (i.toNat ≤ 719)
  | .bcdpack _ _ => true
  | .nextcount _ => true
  | .romword a => decide (a < cfg.wordCount)
  | .reserved => false

end Sys2Proof
end

