-- ==== Sys2Proof/Machine/State.lean ====
section
/-! DEFINITION. The state, the faults and the refusals. The block itself stores nothing (spec/10_state.md R15 to R19):
what State holds is what stands around it, the wires its evaluations have assigned, the Enumerator and the image of
GENERATE, and the two kinds of input data the outside supplies. -/

namespace Sys2Proof.Machine

/-- The names of Table E4 (spec/30_encoding.md R57), for a fault to say who raised it (spec/60_exceptions.md R105). -/
inductive Operation where
  | decode | encode | framebit | timedigits | bcdpack | nextcount | romword | generate
deriving DecidableEq, Repr

/-- The value an ArgumentError names as the offending one (spec/60_exceptions.md R105). -/
inductive Offence where
  /-- A frame position outside 0 to 9 (spec/41_serializer.md R77). -/
  | position (pos : Nat)
  /-- A descriptor that is not well-formed for width `w` (spec/30_encoding.md R49). -/
  | descriptor (w : Nat) (p : Descriptor)
  /-- A minute outside 0 to 719 (spec/42_rom_word.md R84). -/
  | minute (i : Nat)
  /-- A descriptor of the layout, found at startup (spec/60_exceptions.md R107). -/
  | layout (field : LayoutField) (w : Nat) (p : Descriptor)
deriving DecidableEq, Repr

/-- A configuration constant with an illegal value (spec/60_exceptions.md R101). -/
inductive BadConstant where
  | inputBits (value : Nat)
  | outputBits (value : Nat)
deriving DecidableEq, Repr

/-- The events at which the Sink can fail (spec/60_exceptions.md R102: "Sink open/append/close failure"). -/
inductive SinkEvent where
  | openSink
  | append (address : Nat)
  | closeSink
deriving DecidableEq, Repr

/-- The three error kinds (spec/60_exceptions.md R100, Table X1). Each ends the operation without a result (R109) and
cannot be returned from (R110). All are the spec's own faults: safe. What each records beside its kind is R105's for an
ArgumentError and a ConfigurationError; that an IOError records the Sink event, an append's with its address, and that the
operation is written only where the kind leaves it open (`Fault.operation`), is DESIGN CHOICE, log entry 15. -/
inductive Fault where
  /-- Code 1, raised by the startup check before any operation (R101, R107). Safe. -/
  | configurationError (constant : BadConstant)
  /-- Code 2, raised by GENERATE when the environment makes the Sink fail (R102). Safe. -/
  | ioError (event : SinkEvent)
  /-- Code 3, alias InvalidArgument (R103, R104): raised by FRAMEBIT, by TIMEDIGITS outside its domain, by DECODE and
  ENCODE and by the startup check on an ill-formed descriptor. Safe. -/
  | argumentError (operation : Operation) (value : Offence)
deriving DecidableEq, Repr

/-- Why the model answers nothing at all. Every refusal is safe: nothing can be proved of what comes after it. -/
inductive Refusal where
  /-- An instruction without a meaning; raised by no arm of this model. -/
  | notModelled (mnemonic : String)
  /-- Raised by the meaning of select code 111, reserved by spec/30_encoding.md R60 (e). -/
  | reservedSelect
  /-- Raised by the step when the bytes presented are no operation (the model's own format). -/
  | rejected (why : Reject)
  /-- Raised on an operand that its port is too narrow for, which "cannot be presented" (spec/20_memory.md R40): by DECODE,
  ENCODE and ROMWORD, and by a program line of FRAMEBIT, TIMEDIGITS, BCDPACK or NEXTCOUNT (log entry 6). -/
  | operandTooWide (operation : Operation)
  /-- Raised by the Enumerator for an append that is not legal (spec/20_memory.md R41); no run reaches it
  (log entry 13). -/
  | illegalAppend (address : Nat)
  /-- Raised by a program line that names a wire which no earlier line has assigned (spec/30_encoding.md R61). -/
  | undefinedWire (line port : Nat)
deriving DecidableEq, Repr

/-- The four digits of TIMEDIGITS (spec/10_state.md R23, Table S2). -/
structure Digits where
  hoursTens    : Nat
  hoursUnits   : Nat
  minutesTens  : Nat
  minutesUnits : Nat
deriving DecidableEq, Repr

/-- The outputs of one evaluation (spec/10_state.md R20 to R23). -/
inductive Result where
  | val (v : Nat)
  | dstOut (v : Nat)
  | bit (b : Bool)
  | digits (d : Digits)
  | byte (b : Byte)
  | count (n : BitVec 10)
  | word (q : Nat)
deriving DecidableEq, Repr

/-- Bytes at byte offsets, in one canonical form (`Memory.wf`): offsets strictly rising. An offset that is not listed
holds no byte: an image that has not been written does not exist (spec/42_rom_word.md R97). -/
abbrev Memory := List Host.Cell

/-- The Enumerator (spec/10_state.md R17, spec/42_rom_word.md R93). -/
inductive Enumerator where
  /-- No run of GENERATE is in progress. -/
  | idle
  /-- A run has begun and the Sink is about to be opened. `failure` is the Sink event at which the environment makes
  this run fail, if any: a free choice of the environment (spec/60_exceptions.md R102; log entry 11; the model's own). -/
  | opening (failure : Option SinkEvent)
  /-- The words below `address` have been appended to `sink`; a partial image is not observable (R97) and so is kept
  apart from `State.image`. -/
  | writing (failure : Option SinkEvent) (address : Nat) (sink : Memory)
deriving DecidableEq, Repr

/-- The state around the block; plain data. -/
structure State where
  /-- The operations the caller presents and that are not yet evaluated, as bytes (log entry 3; the model's own). -/
  inputs : List Byte
  /-- The outputs assigned so far, the earliest first: "the value of every wire, which is all the state there is"
  (spec/95_test_vectors.md section 3; log entry 4). -/
  wires : List Result
  /-- The agent of GENERATE. -/
  enumerator : Enumerator
  /-- The image of the last run of GENERATE that ended; empty when there is none (spec/20_memory.md R34, R39). -/
  image : Memory
deriving DecidableEq, Repr

/-- What a step or a meaning answers. -/
abbrev Answer := Host.Outcome State Fault Refusal

/-- The machine before anything is presented. The block has no reset state (spec/70_reset_and_hazards.md R116): nothing
is assigned, nothing is running, no image exists; log entry 16. -/
def State.reset : State where
  inputs := []
  wires := []
  enumerator := .idle
  image := []

end Sys2Proof.Machine
end

