-- ==== Sys2Proof/Machine/Ops.lean ====
section
/-! DEFINITION. The shared operations: assigning a wire, raising a fault, reading and writing bytes of an image. -/

namespace Sys2Proof.Machine

/-- One evaluation's only effect: its outputs are new wires, assigned once (spec/30_encoding.md R61; spec/10_state.md R16,
R18: no operation has a side effect on anything but its own result). -/
def State.assign (s : State) (r : Result) : State := { s with wires := s.wires ++ [r] }

/-- `raise K(info)` of Table N1 (spec/00_scope.md R12): the operation ends without a result. Nothing is saved, no mode
changes, there is no handler and no vector (spec/60_exceptions.md R109), and no return (R110). -/
def raise (f : Fault) : Answer := .fault f

/-- The numbers of Table X1 (spec/60_exceptions.md R106). -/
def Fault.code : Fault → Nat
  | .configurationError _ => 1
  | .ioError _ => 2
  | .argumentError _ _ => 3

/-- The operation whose name a fault carries (spec/60_exceptions.md R105): an IOError arises in GENERATE only (R102), a
ConfigurationError before any operation (R101), so neither writes it down (DESIGN CHOICE, log entry 15). -/
def Fault.operation : Fault → Option Operation
  | .configurationError _ => none
  | .ioError _ => some .generate
  | .argumentError op _ => some op

/-- The `fault` output of FRAMEBIT (spec/10_state.md R22): the outcome of the evaluation, not a stored flag (R18). -/
def faultPort : Answer → Bool
  | .next _ => false
  | .fault _ => true
  | .refused _ => false

/-- A result becomes a wire, a fault is raised. -/
def deliver (r : Except Fault Result) (s : State) : Answer :=
  match r with
  | .ok v => .next (s.assign v)
  | .error f => raise f

/-- Building a codec instance (spec/30_encoding.md R49, spec/40_codec.md R69): refused with ArgumentError when the
descriptor is ill-formed. -/
def instanceDefect (op : Operation) (w : Nat) (p : Descriptor) : Option Fault :=
  if descriptorWf w p then none else some (.argumentError op (.descriptor w p))

/-- The static defect of an operation: that of its instance, where it has one. -/
def operationDefect : Instr → Option Fault
  | .decode w p _ => instanceDefect .decode w p
  | .encode w p _ _ => instanceDefect .encode w p
  | .framebit _ _ => none
  | .timedigits _ => none
  | .bcdpack _ _ => none
  | .nextcount _ => none
  | .romword _ => none
  | .reserved => none

/-- An instance that exists is evaluated and never faults (spec/40_codec.md R69). -/
def withInstance (op : Operation) (w : Nat) (p : Descriptor) (evaluate : Answer) : Answer :=
  match instanceDefect op w p with
  | some f => raise f
  | none => evaluate

/-- An operand at a port of `n` bits: a wider number cannot be presented there (spec/20_memory.md R40 says so of an
address; log entry 6). -/
def withPort (op : Operation) (n v : Nat) (evaluate : Answer) : Answer :=
  if v < 2 ^ n then evaluate else .refused (.operandTooWide op)

/-- The canonical form of `Memory`: offsets strictly rising. -/
def Memory.wf : Memory → Bool
  | [] => true
  | [_] => true
  | c :: d :: rest => decide (c.1 < d.1) && Memory.wf (d :: rest)

/-- The byte at an offset, if there is one. -/
def readByte : Memory → Nat → Option Byte
  | [], _ => none
  | (b, v) :: rest, a => if b = a then some v else readByte rest a

/-- Stores one byte, keeping the offsets rising. -/
def writeByte : Memory → Nat → Byte → Memory
  | [], a, v => [(a, v)]
  | (b, w) :: rest, a, v =>
    if a < b then (a, v) :: (b, w) :: rest
    else if a = b then (a, v) :: rest
    else (b, w) :: writeByte rest a v

/-- Stores bytes from an offset on. -/
def writeBytes : Memory → Nat → List Byte → Memory
  | m, _, [] => m
  | m, a, v :: vs => writeBytes (writeByte m a v) (a + 1) vs

end Sys2Proof.Machine
end

