-- ==== Sys2Proof/Machine/Clock.lean ====
section
/-! DEFINITION. The time model, the digit packing and the next-state counter: TIMEDIGITS, BCDPACK, NEXTCOUNT
(spec/42_rom_word.md sections 1 and 2). -/

namespace Sys2Proof.Machine

/-- `while i > bound: i <- i - amount; n <- n + 1` (spec/42_rom_word.md R83), at most `fuel` times round. Each round
takes at least 1 from `i`, so `fuel = i` lets the loop end by its own condition. -/
def subtractWhile (bound amount : Nat) : Nat → Nat → Nat → Nat × Nat
  | 0, i, n => (i, n)
  | fuel + 1, i, n => if i > bound then subtractWhile bound amount fuel (i - amount) (n + 1) else (i, n)

/-- Steps 5 and 6 of spec/42_rom_word.md R83: the hour made 1-based, and 10 carried into the tens. -/
def finishDigits (hoursTens hoursUnits minutesTens minutesUnits : Nat) : Digits :=
  if hoursUnits + 1 = 10 then ⟨hoursTens + 1, 0, minutesTens, minutesUnits⟩
  else ⟨hoursTens, hoursUnits + 1, minutesTens, minutesUnits⟩

/-- The six steps of spec/42_rom_word.md R83, the accumulators starting at 0 (spec/10_state.md R29). -/
def digitSteps (i : Nat) : Digits :=
  let step1 := subtractWhile 599 600 i i 0
  let step2 := subtractWhile 59 60 step1.1 step1.1 0
  let step3 := subtractWhile 9 10 step2.1 step2.1 0
  finishDigits step1.2 step2.2 step3.2 step3.1

/-- TIMEDIGITS with its precondition (spec/42_rom_word.md R84): ArgumentError outside 0 to 719
(spec/60_exceptions.md R103 (c)). -/
def timeDigits (i : Nat) : Except Fault Digits :=
  if i < cycle then .ok (digitSteps i) else .error (.argumentError .timedigits (.minute i))

/-- The minute of the cycle for a counter field: the offset added, then the reduction (spec/42_rom_word.md R87). -/
def minuteOfCycle (cfg : Config) (c : Nat) : Nat := (c + cfg.phaseOffset) % cycle

/-- NEXTCOUNT as a function (spec/42_rom_word.md R88): `n <- c + 1; if n > 719: n <- 0`. -/
def nextCount (c : BitVec 10) : BitVec 10 :=
  let n := c.toNat + 1
  if n > cycle - 1 then 0#10 else BitVec.ofNat 10 n

/-- TIMEDIGITS (spec/42_rom_word.md R83, R84). -/
def execTimedigits (i : BitVec 10) (s : State) : Answer := deliver ((timeDigits i.toNat).map .digits) s

/-- BCDPACK (spec/42_rom_word.md R86). -/
def execBcdpack (tens units : BitVec 4) (s : State) : Answer := .next (s.assign (.byte (packDigits tens units)))

/-- NEXTCOUNT (spec/42_rom_word.md R88). -/
def execNextcount (c : BitVec 10) (s : State) : Answer := .next (s.assign (.count (nextCount c)))

end Sys2Proof.Machine
end

