-- ==== Sys2Proof/Machine/Codec.lean ====
section
/-! DEFINITION. The bitfield codec: DECODE and ENCODE (spec/40_codec.md). No flag, no state, no memory; no fault at
evaluation (R69), ArgumentError for an instance that cannot be built (R49, R103 (b)). -/

namespace Sys2Proof.Machine

/-- DECODE (spec/40_codec.md R65). -/
def execDecode (w : Nat) (p : Descriptor) (src : Nat) (s : State) : Answer :=
  withInstance .decode w p <| withPort .decode w src <| .next (s.assign (.val (gather p src)))

/-- ENCODE (spec/40_codec.md R66). `val` is any natural; only its low `p.length` bits are used (R128). -/
def execEncode (w : Nat) (p : Descriptor) (dst val : Nat) (s : State) : Answer :=
  withInstance .encode w p <| withPort .encode w dst <| .next (s.assign (.dstOut (scatter p dst val)))

end Sys2Proof.Machine
end

