-- ==== Sys2Proof/Machine/Serializer.lean ====
section
/-! DEFINITION. The asynchronous-frame serializer: FRAMEBIT (spec/41_serializer.md). -/

namespace Sys2Proof.Machine

/-- The line level of the frame of `byte` at a position (spec/41_serializer.md R76): the start bit, the eight data bits
least significant first, the stop bit; ArgumentError for every other position (R77, also for an unbounded natural). -/
def frameBit (byte : Byte) (pos : Nat) : Except Fault Bool :=
  if pos = 0 then .ok false
  else if pos ≤ 8 then .ok (byte.getLsbD (pos - 1))
  else if pos = 9 then .ok true
  else .error (.argumentError .framebit (.position pos))

/-- FRAMEBIT (spec/41_serializer.md R76, R77). -/
def execFramebit (byte : Byte) (pos : BitVec 4) (s : State) : Answer :=
  deliver ((frameBit byte pos.toNat).map .bit) s

end Sys2Proof.Machine
end

