-- ==== Sys2Proof/Machine/Rom.lean ====
section
/-! DEFINITION. The ROM: ROMWORD (spec/42_rom_word.md R90), the read of the address space (spec/20_memory.md R40) and the
bytes of its image (R34). Select code 111 has its refusal here too. -/

namespace Sys2Proof.Machine

/-- The four bytes that one address serializes (spec/42_rom_word.md R90, steps 2 to 4). -/
structure WordBytes where
  hour         : Byte
  minute       : Byte
  feedbackLow  : Byte
  feedbackHigh : Byte
deriving DecidableEq, Repr

/-- Steps 2 to 4 of spec/42_rom_word.md R90, from the counter field: the displayed time of `m` and the feedback value
`n`, each computed from `c` and neither from the other (R88, spec/70_reset_and_hazards.md R126). -/
def wordBytesOf (cfg : Config) (c : Nat) : Except Fault WordBytes :=
  match timeDigits (minuteOfCycle cfg c) with
  | .error f => .error f
  | .ok d =>
    let n := nextCount (BitVec.ofNat 10 c)
    .ok { hour := packDigits (BitVec.ofNat 4 d.hoursTens) (BitVec.ofNat 4 d.hoursUnits)
          minute := packDigits (BitVec.ofNat 4 d.minutesTens) (BitVec.ofNat 4 d.minutesUnits)
          feedbackLow := feedbackLowByte n
          feedbackHigh := feedbackHighByte n }

/-- Step 6 of spec/42_rom_word.md R90: the four bits encoded into the default word, cut to `OutputBits` first
(spec/10_state.md R26), each at its own position, in the order of the rule. -/
def packWord (cfg : Config) (bLow bHigh bMin bHour : Bool) : Nat :=
  let q0 := trunc cfg.outputBits cfg.defaultOutput
  let q1 := scatter cfg.layout.feedbackLow q0 bLow.toNat
  let q2 := scatter cfg.layout.feedbackHigh q1 bHigh.toNat
  let q3 := scatter cfg.layout.minuteBit q2 bMin.toNat
  scatter cfg.layout.hourBit q3 bHour.toNat

/-- The word at address `a` (spec/42_rom_word.md R90), as the composition the rule gives. A fault of a part would be its
fault; under a legal configuration there is none (R91, to be proved: spec/60_exceptions.md R115). -/
def romWord (cfg : Config) (a : Nat) : Except Fault Nat := do
  let pos := gather cfg.layout.serial a
  let c := gather cfg.layout.count a
  let bytes ← wordBytesOf cfg c
  let bHour ← frameBit bytes.hour pos
  let bMin ← frameBit bytes.minute pos
  let bLow ← frameBit bytes.feedbackLow pos
  let bHigh ← frameBit bytes.feedbackHigh pos
  .ok (packWord cfg bLow bHigh bMin bHour)

/-- ROMWORD under a configuration; the address port has `InputBits` bits (spec/10_state.md R23). -/
def evalRomword (cfg : Config) (a : Nat) (s : State) : Answer :=
  withPort .romword cfg.inputBits a <| deliver ((romWord cfg a).map .word) s

/-- ROMWORD in this clock (spec/42_rom_word.md R90). -/
def execRomword (a : Nat) (s : State) : Answer := evalRomword clock a s

/-- Select code 111: "reserved by this spec; a model refuses it" (spec/30_encoding.md R60 (e)). -/
def execReserved (_ : State) : Answer := .refused .reservedSelect

/-- The bytes that the word `q` is emitted as: cut to `OutputBits`, most significant byte first
(spec/42_rom_word.md R94, spec/20_memory.md R35). -/
def emit (cfg : Config) (q : Nat) : List Byte := bigEndian cfg.wordBytes (trunc cfg.outputBits q)

/-- `MemRead(a, OutputBits/8)` (spec/20_memory.md R40): the bytes of the word at `a`; no meaning for an `a` of more than
`InputBits` bits. -/
def memRead (cfg : Config) (a : Nat) : Option (List Byte) :=
  if a < cfg.wordCount then
    match romWord cfg a with
    | .ok q => some (emit cfg q)
    | .error _ => none
  else none

/-- The bytes of the first `k` words of the image, in address order, no separators (spec/20_memory.md R34, R36, R37). -/
def romBytes (cfg : Config) (k : Nat) : List Byte := (List.range k).flatMap fun a => (memRead cfg a).getD []

end Sys2Proof.Machine
end

