-- ==== Sys2Proof/Machine/Dispatch.lean ====
section
/-! DEFINITION. The operations, one arm per select code (Table E5 of spec/30_encoding.md R58). -/

namespace Sys2Proof.Machine

def exec (i : Instr) (s : State) : Host.Outcome State Fault Refusal :=
  match i with
  | .decode w p src => Sys2Proof.Machine.execDecode w p src s
  | .encode w p dst val => Sys2Proof.Machine.execEncode w p dst val s
  | .framebit byte pos => Sys2Proof.Machine.execFramebit byte pos s
  | .timedigits m => Sys2Proof.Machine.execTimedigits m s
  | .bcdpack tens units => Sys2Proof.Machine.execBcdpack tens units s
  | .nextcount c => Sys2Proof.Machine.execNextcount c s
  | .romword a => Sys2Proof.Machine.execRomword a s
  | .reserved => Sys2Proof.Machine.execReserved s

end Sys2Proof.Machine
end

