-- ==== Sys2Proof/Machine/Generate.lean ====
section
/-! DEFINITION. GENERATE (spec/42_rom_word.md section 4): the Enumerator's steps, one Sink action each. The environment may
make the Sink fail at any of them (spec/60_exceptions.md R102). -/

namespace Sys2Proof.Machine

/-- `MemWrite(a, n, v)`, the Sink's append (spec/20_memory.md R41): legal only when `a` is the number of words appended so
far, `n = OutputBits/8` and `v < 2^OutputBits`; extends the image by the `n` bytes of `v`, most significant first. -/
def memWrite (cfg : Config) (a n v : Nat) (sink : Memory) : Option Memory :=
  if sink.length = a * cfg.wordBytes ∧ n = cfg.wordBytes ∧ v < 2 ^ cfg.outputBits then
    some (writeBytes sink (a * cfg.wordBytes) (bigEndian n v))
  else none

/-- A Sink action of a run whose environment has chosen `failure`: IOError when that is this event
(spec/60_exceptions.md R102). -/
def withSink (failure : Option SinkEvent) (e : SinkEvent) (proceed : Answer) : Answer :=
  if failure = some e then raise (.ioError e) else proceed

/-- The run begins: the Sink is opened and the address stands at 0 (spec/10_state.md R29). -/
def openStep (failure : Option SinkEvent) (s : State) : Answer :=
  withSink failure .openSink <| .next { s with enumerator := .writing failure 0 [] }

/-- One pass of the loop of spec/42_rom_word.md R93: the word is evaluated, then appended
(spec/60_exceptions.md R107) cut to `OutputBits` (spec/42_rom_word.md R94), and the address advances by one. -/
def appendStep (cfg : Config) (failure : Option SinkEvent) (a : Nat) (sink : Memory) (s : State) : Answer :=
  match romWord cfg a with
  | .error f => raise f
  | .ok q =>
    withSink failure (.append a) <|
      match memWrite cfg a cfg.wordBytes (trunc cfg.outputBits q) sink with
      | none => .refused (.illegalAppend a)
      | some sink' => .next { s with enumerator := .writing failure (a + 1) sink' }

/-- The run ends after the last address (spec/42_rom_word.md R93): only now is there an image (R97), and it is whole. -/
def closeStep (failure : Option SinkEvent) (sink : Memory) (s : State) : Answer :=
  withSink failure .closeSink <| .next { s with enumerator := .idle, image := sink }

/-- What the Enumerator does with the words below `a` written. -/
def writeStep (cfg : Config) (failure : Option SinkEvent) (a : Nat) (sink : Memory) (s : State) : Answer :=
  if a < cfg.wordCount then appendStep cfg failure a sink s else closeStep failure sink s

/-- The outside starts a run of GENERATE (log entry 10); `failure` is what the environment will do in it (log entry
11). -/
def State.startGenerate (s : State) (failure : Option SinkEvent) : State := { s with enumerator := .opening failure }

end Sys2Proof.Machine
end

