-- ==== Sys2Proof/Machine/Sequence.lean ====
section
/-! DEFINITION. The order of things around an evaluation: the startup check, then the run of GENERATE in progress, then
the operation presented; for any configuration. -/

namespace Sys2Proof.Machine

/-- The codec operation that a descriptor of the layout belongs to (spec/42_rom_word.md R90, steps 1 and 6). -/
def fieldOperation : LayoutField → Operation
  | .serial => .decode
  | .count => .decode
  | .fblo => .encode
  | .fbhi => .encode
  | .minbit => .encode
  | .hourbit => .encode

/-- The fault of a defect of the build (spec/60_exceptions.md R101 and R103 (b)). -/
def defectFault : BuildDefect → Fault
  | .outputBits v => .configurationError (.outputBits v)
  | .inputBits v => .configurationError (.inputBits v)
  | .descriptor f w p => .argumentError (fieldOperation f) (.layout f w p)

/-- The first static defect among the operations presented, of which there are at most `fuel`; bytes that present no
operation end the list. -/
def firstPresentedDefect : Nat → List Byte → Option Fault
  | 0, _ => none
  | fuel + 1, bs =>
    match decodeInstr bs with
    | .error _ => none
    | .ok (i, rest) => (operationDefect i).or (firstPresentedDefect fuel rest)

/-- The first static defect among the operations presented; each takes at least one byte. -/
def presentedDefect (bs : List Byte) : Option Fault := firstPresentedDefect bs.length bs

/-- The next operation presented: read from the inputs, which move on past it, and evaluated by `run`; but first every
instance presented is built, because an ill-formed descriptor "is found before any evaluation"
(spec/60_exceptions.md R107, spec/70_reset_and_hazards.md R118; log entry 5). -/
def evaluateStep (run : Instr → State → Answer) (s : State) : Answer :=
  match presentedDefect s.inputs with
  | some f => raise f
  | none =>
    match decodeInstr s.inputs with
    | .error e => .refused (.rejected e)
    | .ok (i, rest) => run i { s with inputs := rest }

/-- One step under a configuration. The startup check comes first (spec/70_reset_and_hazards.md R118; its answer is the
same at every step, the configuration being fixed: log entry 22). A run of GENERATE has no suspension point
(spec/20_memory.md R44), so it goes on before anything else is evaluated. -/
def stepUnder (cfg : Config) (run : Instr → State → Answer) (s : State) : Answer :=
  match cfg.defect with
  | some d => raise (defectFault d)
  | none =>
    match s.enumerator with
    | .idle => evaluateStep run s
    | .opening failure => openStep failure s
    | .writing failure a sink => writeStep cfg failure a sink s

/-- The operations under any configuration: ROMWORD is the only one that reads it (spec/42_rom_word.md R90). -/
def execUnder (cfg : Config) (i : Instr) (s : State) : Answer :=
  match i with
  | .decode w p src => execDecode w p src s
  | .encode w p dst val => execEncode w p dst val s
  | .framebit byte pos => execFramebit byte pos s
  | .timedigits i => execTimedigits i s
  | .bcdpack tens units => execBcdpack tens units s
  | .nextcount c => execNextcount c s
  | .romword a => evalRomword cfg a s
  | .reserved => execReserved s

/-- `k` steps one after another, ending at the first fault or refusal. -/
def runSteps (step : State → Answer) : Nat → State → Answer
  | 0, s => .next s
  | k + 1, s =>
    match step s with
    | .next s' => runSteps step k s'
    | .fault f => .fault f
    | .refused r => .refused r

end Sys2Proof.Machine
end

