-- ==== Sys2Proof/Machine/Step.lean ====
section
/-! DEFINITION. The step of this clock's machine, and how one operation is presented to it. -/

namespace Sys2Proof.Machine

/-- One step of the machine built with this clock's configuration. -/
def step (s : State) : Host.Outcome State Fault Refusal := stepUnder clock exec s

/-- `s` with one operation presented, whose opcode-table bits are `w` and whose further operand bytes are zeros, and with
no run of GENERATE in progress, so that the very next step evaluates it (log entry 3). -/
def State.withFetchWord (s : State) (nbits w : Nat) : State :=
  { s with inputs := tableBytes nbits w, enumerator := .idle }

end Sys2Proof.Machine
end

