-- ==== Sys2Proof/Machine/Program.lean ====
section
/-! DEFINITION. Programs in the written form of spec/30_encoding.md R61: a list of operation terms, one per line, each
operand a number or a wire assigned on an earlier line (R64). The block itself has no sequencing (spec/10_state.md R17): a
program is its caller's composition of evaluations. Wires are named by position (log entry 21). -/

namespace Sys2Proof.Machine

/-- An operand of a line. -/
inductive Term where
  /-- A number. -/
  | lit (v : Nat)
  /-- Output port `port` of wire `line`, both counted from 0 in `State.wires`: the result of that line, for a program that
  starts without wires. DESIGN CHOICE, log entry 21: started on a state with `k` wires, wire `j` below `k` is the older one
  and the result of line `j` is wire `k + j`. -/
  | wire (line port : Nat)
deriving DecidableEq, Repr

/-- One line, `result <- MNEMONIC(operands)`; descriptors and widths are static and so are written out
(spec/30_encoding.md R47). -/
inductive Line where
  | decode (w : Nat) (p : Descriptor) (src : Term)
  | encode (w : Nat) (p : Descriptor) (dst val : Term)
  | framebit (byte pos : Term)
  | timedigits (i : Term)
  | bcdpack (tens units : Term)
  | nextcount (c : Term)
  | romword (a : Term)
deriving DecidableEq, Repr

/-- The output ports of a result as unsigned numbers (spec/00_scope.md R11), in the order of spec/10_state.md R23. -/
def Result.ports : Result → List Nat
  | .val v => [v]
  | .dstOut v => [v]
  | .bit b => [b.toNat]
  | .digits d => [d.hoursTens, d.hoursUnits, d.minutesTens, d.minutesUnits]
  | .byte b => [b.toNat]
  | .count n => [n.toNat]
  | .word q => [q]

/-- The number an operand stands for; a wire that is not assigned yet does not exist. The index counts from the start of
`wires`, older wires among them (DESIGN CHOICE, log entry 21). -/
def termValue (wires : List Result) : Term → Except Refusal Nat
  | .lit v => .ok v
  | .wire l k =>
    match wires[l]? with
    | none => .error (.undefinedWire l k)
    | some r => match r.ports[k]? with
      | none => .error (.undefinedWire l k)
      | some v => .ok v

/-- An operand at a port of `n` bits; a wider one is refused by name, also at FRAMEBIT's `pos` and `byte` (DESIGN CHOICE,
log entry 6). -/
def termPort (op : Operation) (n : Nat) (wires : List Result) (t : Term) : Except Refusal (BitVec n) := do
  let v ← termValue wires t
  if v < 2 ^ n then .ok (BitVec.ofNat n v) else .error (.operandTooWide op)

/-- The operation a line presents, its operands taken from the wires. -/
def lineInstr (wires : List Result) : Line → Except Refusal Instr
  | .decode w p src => do .ok (.decode w p (← termValue wires src))
  | .encode w p dst val => do .ok (.encode w p (← termValue wires dst) (← termValue wires val))
  | .framebit byte pos => do .ok (.framebit (← termPort .framebit 8 wires byte) (← termPort .framebit 4 wires pos))
  | .timedigits i => do .ok (.timedigits (← termPort .timedigits 10 wires i))
  | .bcdpack tens units => do .ok (.bcdpack (← termPort .bcdpack 4 wires tens) (← termPort .bcdpack 4 wires units))
  | .nextcount c => do .ok (.nextcount (← termPort .nextcount 10 wires c))
  | .romword a => do .ok (.romword (← termValue wires a))

/-- The static defect of a line: that of its instance, which needs no wire. -/
def lineDefect : Line → Option Fault
  | .decode w p _ => instanceDefect .decode w p
  | .encode w p _ _ => instanceDefect .encode w p
  | .framebit _ _ => none
  | .timedigits _ => none
  | .bcdpack _ _ => none
  | .nextcount _ => none
  | .romword _ => none

/-- The first static defect of a program. -/
def programDefect (ls : List Line) : Option Fault := ls.findSome? lineDefect

/-- Evaluates one line: its instance is built, then its wires are read. -/
def runLine (l : Line) (s : State) : Answer :=
  match lineDefect l with
  | some f => raise f
  | none =>
    match lineInstr s.wires l with
    | .error e => .refused e
    | .ok i => exec i s

/-- Evaluates line after line; a fault ends it, and the lines after it are not evaluated (spec/60_exceptions.md R109;
program P5 of spec/95_test_vectors.md). -/
def runLines : List Line → State → Answer
  | [], s => .next s
  | l :: ls, s =>
    match runLine l s with
    | .next s' => runLines ls s'
    | .fault f => .fault f
    | .refused r => .refused r

/-- Runs a program: every instance is built before any line is evaluated (spec/60_exceptions.md R107). -/
def runProgram (ls : List Line) (s : State) : Answer :=
  match programDefect ls with
  | some f => raise f
  | none => runLines ls s

end Sys2Proof.Machine
end

