-- ==== Sys2Proof/Safety.lean ====
section
/-! DEFINITION. What counts as safe, in the terms the claims use. -/

namespace Sys2Proof.Machine

/-- The codec instances of this clock: the descriptors of spec/30_encoding.md R51 and R53, each with its width. -/
def clockInstances : List (Nat × Descriptor) :=
  [ (clock.inputBits, clock.layout.serial), (clock.inputBits, clock.layout.count),
    (clock.outputBits, clock.layout.feedbackLow), (clock.outputBits, clock.layout.feedbackHigh),
    (clock.outputBits, clock.layout.minuteBit), (clock.outputBits, clock.layout.hourBit) ]

/-- The operations of the primary block of this clock (spec/00_scope.md R2, spec/60_exceptions.md R115): DECODE and ENCODE
on its instances, with any operands, and FRAMEBIT driven directly. -/
def primaryOperation : Instr → Prop
  | .decode w p _ => (w, p) ∈ clockInstances
  | .encode w p _ _ => (w, p) ∈ clockInstances
  | .framebit _ _ => True
  | .timedigits _ => False
  | .bcdpack _ _ => False
  | .nextcount _ => False
  | .romword _ => False
  | .reserved => False

/-- The cells of a flat file of bytes that begins at byte offset `at0` (spec/20_memory.md R34). -/
def cellsFrom (at0 : Nat) : List Byte → Memory
  | [] => []
  | b :: bs => (at0, b) :: cellsFrom (at0 + 1) bs

/-- The image of the first `k` words, as cells; the whole image is that of `cfg.wordCount` words
(spec/42_rom_word.md R95). -/
def imageCells (cfg : Config) (k : Nat) : Memory := cellsFrom 0 (romBytes cfg k)

/-- The Sink holds exactly the words of the addresses below the one the Enumerator stands at (spec/20_memory.md R36,
R44). -/
def Enumerator.inOrder (cfg : Config) : Enumerator → Prop
  | .idle => True
  | .opening _ => True
  | .writing _ a sink => a ≤ cfg.wordCount ∧ sink = imageCells cfg a

/-- The invariant of a machine under `cfg`: the Enumerator is in order, and the image is absent or whole
(spec/42_rom_word.md R97). -/
def State.inv (cfg : Config) (s : State) : Prop :=
  s.enumerator.inOrder cfg ∧ (s.image = [] ∨ s.image = imageCells cfg cfg.wordCount)

/-- The canonical form of every memory in a state. -/
def State.memoriesWf (s : State) : Prop :=
  Memory.wf s.image = true ∧
    match s.enumerator with
    | .idle => True
    | .opening _ => True
    | .writing _ _ sink => Memory.wf sink = true

end Sys2Proof.Machine
end

