-- ==== Sys2Proof/Certificates/Slice0/Obligations.lean ====
section
/-! DEFINITION. The statements for the provers. Each conclusion about an operation is the whole next state: the inputs
and wires in front of it, with the image and the Enumerator as they were, and one more wire at the end. -/

namespace Sys2Proof.Machine

/-- The ROM word of this clock in closed form: the four frames of spec/41_serializer.md R79 at position `a mod 8`, of the
two bytes of the next count and of the digits of spec/42_rom_word.md R85, both from `c = a div 8`. Written without any
function of the model. -/
def closedWord (a : Nat) : Nat :=
  let pos := a % 8
  let c := a / 8
  let m := (c + 480) % 720
  let hour := m / 60 + 1
  let minute := m % 60
  let n := if c + 1 > 719 then 0 else c + 1
  let level (byte : Nat) : Nat := (512 + 2 * byte) / 2 ^ pos % 2
  level (n % 256) + 2 * level (n / 256) + 4 * level (16 * (minute / 10) + minute % 10)
    + 8 * level (16 * (hour / 10) + hour % 10)

/-- The expansion of ROMWORD into the other operations (spec/42_rom_word.md R90, spec/30_encoding.md R62) under a
configuration with the layout of spec/30_encoding.md R51 and R53. The reduction of R87 and the cut of the default word
are arithmetic and so are written out; the cut of R89 is a DECODE of ten bits. -/
def wordProgram (cfg : Config) (a : Nat) : List Line :=
  [ .decode cfg.inputBits [0, 1, 2] (.lit a),
    .decode cfg.inputBits [3, 4, 5, 6, 7, 8, 9, 10, 11, 12] (.lit a),
    .timedigits (.lit ((a / 8 % 1024 + cfg.phaseOffset) % 720)),
    .bcdpack (.wire 2 0) (.wire 2 1),
    .bcdpack (.wire 2 2) (.wire 2 3),
    .nextcount (.wire 1 0),
    .decode 10 [0, 1, 2, 3, 4, 5, 6, 7] (.wire 5 0),
    .decode 10 [8, 9] (.wire 5 0),
    .framebit (.wire 3 0) (.wire 0 0),
    .framebit (.wire 4 0) (.wire 0 0),
    .framebit (.wire 6 0) (.wire 0 0),
    .framebit (.wire 7 0) (.wire 0 0),
    .encode cfg.outputBits [0] (.lit (cfg.defaultOutput % 2 ^ cfg.outputBits)) (.wire 10 0),
    .encode cfg.outputBits [1] (.wire 12 0) (.wire 11 0),
    .encode cfg.outputBits [2] (.wire 13 0) (.wire 9 0),
    .encode cfg.outputBits [3] (.wire 14 0) (.wire 8 0) ]

end Sys2Proof.Machine

open Sys2Proof Sys2Proof.Machine

/-! ## The bitfield codec -/

/-- R65: DECODE of a well-formed instance answers the field, bit `k` from the `k`-th listed position, and assigns it. -/
def Obligations.DecodeGathersListedBits : Prop :=
  ∀ (w : Nat) (p : Descriptor) (src : Nat) (s : State), descriptorWf w p = true → src < 2 ^ w →
    ∃ v, exec (.decode w p src) s = .next { s with wires := s.wires ++ [.val v] } ∧
      v < 2 ^ p.length ∧ ∀ k (hk : k < p.length), v.testBit k = src.testBit p[k]

/-- R66: ENCODE of a well-formed instance ORs value bit `k` into the `k`-th listed position and leaves every other
position; any natural `val` is admitted. -/
def Obligations.EncodeOrsIntoListedBits : Prop :=
  ∀ (w : Nat) (p : Descriptor) (dst val : Nat) (s : State), descriptorWf w p = true → dst < 2 ^ w →
    ∃ q, exec (.encode w p dst val) s = .next { s with wires := s.wires ++ [.dstOut q] } ∧ q < 2 ^ w ∧
      (∀ k (hk : k < p.length), q.testBit p[k] = (dst.testBit p[k] || val.testBit k)) ∧
      ∀ j, j ∉ p → q.testBit j = dst.testBit j

/-- ENCODE clears nothing, and what it wrote reads back through DECODE as the value encoded exactly when every listed
position that held a 1 receives a 1 (spec/40_codec.md section 3, the spec's own inference). -/
def Obligations.EncodeNeverClears : Prop :=
  ∀ (w : Nat) (p : Descriptor) (dst val : Nat) (s : State), descriptorWf w p = true → dst < 2 ^ w →
    ∃ q, exec (.encode w p dst val) s = .next { s with wires := s.wires ++ [.dstOut q] } ∧
      (∀ j, dst.testBit j = true → q.testBit j = true) ∧
      ∀ t : State, ∃ v, exec (.decode w p q) t = .next { t with wires := t.wires ++ [.val v] } ∧
        (v = val % 2 ^ p.length ↔
          ∀ k (hk : k < p.length), dst.testBit p[k] = true → val.testBit k = true)

/-- FSM's property 5 and its general form (spec/40_codec.md section 3, the spec's own inference): what is encoded onto 0
is decoded again; onto a general destination the OR of it and the field's old value is. -/
def Obligations.CodecRoundTrip : Prop :=
  ∀ (w : Nat) (p : Descriptor) (dst val : Nat) (s t : State), descriptorWf w p = true → dst < 2 ^ w →
    val < 2 ^ p.length →
    (∃ q, exec (.encode w p 0 val) s = .next { s with wires := s.wires ++ [.dstOut q] } ∧
      exec (.decode w p q) t = .next { t with wires := t.wires ++ [.val val] }) ∧
    ∃ q v, exec (.encode w p dst val) s = .next { s with wires := s.wires ++ [.dstOut q] } ∧
      exec (.decode w p dst) t = .next { t with wires := t.wires ++ [.val v] } ∧
      exec (.decode w p q) t = .next { t with wires := t.wires ++ [.val (val ||| v)] }

/-- The algebra of ENCODE (spec/40_codec.md section 3, the spec's own inference): OR with the encoding onto 0,
idempotence, commutation of any two encodings, and the unit. -/
def Obligations.EncodeAlgebra : Prop :=
  ∀ (p p' : Descriptor) (dst val val' : Nat),
    scatter p dst val = dst ||| scatter p 0 val ∧
    scatter p (scatter p dst val) val = scatter p dst val ∧
    scatter p' (scatter p dst val) val' = scatter p (scatter p' dst val') val ∧
    scatter p dst 0 = dst

/-- Locality of DECODE (spec/40_codec.md section 3, the spec's own inference), as an equivalence: two words have the same
field exactly when they agree at its positions. -/
def Obligations.DecodeDependsOnListedBits : Prop :=
  ∀ (p : Descriptor) (src src' : Nat),
    gather p src = gather p src' ↔ ∀ x ∈ p, src.testBit x = src'.testBit x

/-- Composition of two lists (spec/40_codec.md section 3, the spec's own inference). -/
def Obligations.CodecComposition : Prop :=
  ∀ (p p' : Descriptor) (src dst val : Nat),
    gather (p ++ p') src = gather p src ||| (gather p' src <<< p.length) ∧
    scatter (p ++ p') dst val = scatter p' (scatter p dst (val % 2 ^ p.length)) (val >>> p.length)

/-- R51: the two descriptors of the address, both for W = 13, read `A[2:0]` and `A[12:3]`. -/
def Obligations.AddressFieldsAreItsSlices : Prop :=
  clock.layout.serial = [0, 1, 2] ∧ clock.layout.count = [3, 4, 5, 6, 7, 8, 9, 10, 11, 12] ∧
  ∀ (a : Nat) (s : State), a < 2 ^ 13 →
    exec (.decode 13 clock.layout.serial a) s = .next { s with wires := s.wires ++ [.val (a % 8)] } ∧
    exec (.decode 13 clock.layout.count a) s = .next { s with wires := s.wires ++ [.val (a / 8)] }

/-- The address is packed from its fields (spec/40_codec.md section 3, the spec's own inference from its rules on
composition): position first, then counter field. -/
def Obligations.AddressIsPackedFromItsFields : Prop :=
  ∀ (pos c : Nat) (s t : State), pos < 8 → c < 1024 →
    exec (.encode 13 [0, 1, 2] 0 pos) s = .next { s with wires := s.wires ++ [.dstOut pos] } ∧
    exec (.encode 13 [3, 4, 5, 6, 7, 8, 9, 10, 11, 12] pos c) t =
      .next { t with wires := t.wires ++ [.dstOut (c * 8 + pos)] }

/-- What a well-formed descriptor is, that it is no longer than its word is wide, and that an instance with any other
descriptor is refused with ArgumentError (spec/30_encoding.md section 1). That the refusal comes from the presented
operation, before its operands are looked at, and names the width and the list is the model's reading (log entries 5 and
15). -/
def Obligations.IllFormedDescriptorIsArgumentError : Prop :=
  ∀ (w : Nat) (p : Descriptor),
    (descriptorWf w p = true ↔ p ≠ [] ∧ (∀ x ∈ p, x < w) ∧ p.Nodup) ∧
    (descriptorWf w p = true → p.length ≤ w) ∧
    (descriptorWf w p = false → ∀ (src dst val : Nat) (s : State),
      exec (.decode w p src) s = .fault (.argumentError .decode (.descriptor w p)) ∧
      exec (.encode w p dst val) s = .fault (.argumentError .encode (.descriptor w p)))

/-- Operands that a port is too narrow for "cannot be presented" (spec/20_memory.md section 3, of an address); the model
refuses them by name (log entry 6). -/
def Obligations.OperandsWiderThanTheirPortsAreRefused : Prop :=
  ∀ (w : Nat) (p : Descriptor) (v val a : Nat) (s : State), descriptorWf w p = true → 2 ^ w ≤ v → 2 ^ 13 ≤ a →
    exec (.decode w p v) s = .refused (.operandTooWide .decode) ∧
    exec (.encode w p v val) s = .refused (.operandTooWide .encode) ∧
    exec (.romword a) s = .refused (.operandTooWide .romword)

/-! ## The serializer -/

/-- R76: the line level at each position of the frame, and ArgumentError at every other `pos`. -/
def Obligations.FramebitLineLevels : Prop :=
  ∀ (byte : Byte) (pos : BitVec 4) (s : State),
    (pos.toNat = 0 → exec (.framebit byte pos) s = .next { s with wires := s.wires ++ [.bit false] }) ∧
    (∀ k, k < 8 → pos.toNat = k + 1 →
      exec (.framebit byte pos) s = .next { s with wires := s.wires ++ [.bit (byte.toNat.testBit k)] }) ∧
    (pos.toNat = 9 → exec (.framebit byte pos) s = .next { s with wires := s.wires ++ [.bit true] }) ∧
    (10 ≤ pos.toNat → exec (.framebit byte pos) s = .fault (.argumentError .framebit (.position pos.toNat)))

/-- R77: outside 0 to 9 there is no bit: the answer is ArgumentError and the `fault` output is 1; an unbounded position
from 10 on faults in the same way. -/
def Obligations.FramePositionOutsideFaults : Prop :=
  ∀ (byte : Byte) (s : State),
    (∀ pos : BitVec 4, 10 ≤ pos.toNat →
      exec (.framebit byte pos) s = .fault (.argumentError .framebit (.position pos.toNat)) ∧
      faultPort (exec (.framebit byte pos) s) = true) ∧
    (∀ pos : BitVec 4, pos.toNat ≤ 9 → faultPort (exec (.framebit byte pos) s) = false) ∧
    ∀ pos : Nat, 10 ≤ pos → frameBit byte pos = .error (.argumentError .framebit (.position pos))

/-- R78, FSM's property 4: start 0, stop 1, and positions 1 to 8 give the byte again, least significant first. -/
def Obligations.FrameReassemblesItsByte : Prop :=
  ∀ (byte : Byte) (s : State), ∃ level : Nat → Bool,
    (∀ pos : BitVec 4, pos.toNat ≤ 9 →
      exec (.framebit byte pos) s = .next { s with wires := s.wires ++ [.bit (level pos.toNat)] }) ∧
    level 0 = false ∧ level 9 = true ∧
    ((List.range 8).map fun j => (level (j + 1)).toNat <<< j).sum = byte.toNat

/-- The closed form of the frame (spec/41_serializer.md section 2, the spec's own inference): FRAMEBIT is a bit of
`512 + 2 × b`, and so the DECODE of one position of that 10 bit word. -/
def Obligations.FrameIsDecodedFromItsWord : Prop :=
  ∀ (byte : Byte) (pos : BitVec 4) (s t : State), pos.toNat ≤ 9 →
    ∃ b : Bool, exec (.framebit byte pos) s = .next { s with wires := s.wires ++ [.bit b] } ∧
      b = (512 + 2 * byte.toNat).testBit pos.toNat ∧
      exec (.decode 10 [pos.toNat] (512 + 2 * byte.toNat)) t =
        .next { t with wires := t.wires ++ [.val b.toNat] }

/-! ## The time model, the packing and the counter -/

/-- R83: TIMEDIGITS by its six steps: how often each loop runs, what it leaves, and the 1-based hour with its carry. -/
def Obligations.TimedigitsFollowsItsSteps : Prop :=
  ∀ (i : BitVec 10) (s : State), i.toNat ≤ 719 →
    ∃ hT hU mT i1 i2 i3 : Nat,
      i.toNat = 600 * hT + i1 ∧ i1 ≤ 599 ∧ i1 = 60 * hU + i2 ∧ i2 ≤ 59 ∧ i2 = 10 * mT + i3 ∧ i3 ≤ 9 ∧
      exec (.timedigits i) s = .next { s with wires := s.wires ++
        [.digits (if hU + 1 = 10 then ⟨hT + 1, 0, mT, i3⟩ else ⟨hT, hU + 1, mT, i3⟩)] }

/-- Ranges and closed form of the digits (spec/42_rom_word.md section 1, the spec's own inference; FSM's property 2). -/
def Obligations.TimedigitsClosedForm : Prop :=
  ∀ (i : BitVec 10) (s : State), i.toNat ≤ 719 →
    ∃ d : Digits, exec (.timedigits i) s = .next { s with wires := s.wires ++ [.digits d] } ∧
      10 * d.hoursTens + d.hoursUnits = i.toNat / 60 + 1 ∧
      10 * d.minutesTens + d.minutesUnits = i.toNat % 60 ∧
      d.hoursTens ≤ 1 ∧ d.hoursUnits ≤ 9 ∧ d.minutesTens ≤ 5 ∧ d.minutesUnits ≤ 9 ∧
      ¬ (d.hoursTens = 0 ∧ d.hoursUnits = 0)

/-- R86 and R55: BCDPACK puts the tens digit in bits 7 to 4 and the units digit in bits 3 to 0. -/
def Obligations.BcdpackFillsTheNibbles : Prop :=
  ∀ (tens units : BitVec 4) (s : State),
    ∃ q : Byte, exec (.bcdpack tens units) s = .next { s with wires := s.wires ++ [.byte q] } ∧
      q.toNat = (units.toNat ||| (tens.toNat <<< 4)) ∧
      q.toNat / 16 = tens.toNat ∧ q.toNat % 16 = units.toNat

/-- R88: NEXTCOUNT is the increment that wraps to 0 above 719, for every 10 bit value, and what ROMWORD feeds back is the
next count of the counter field itself, without the phase offset. -/
def Obligations.NextcountIsFedBackUnshifted : Prop :=
  ∀ (c : BitVec 10) (s : State),
    ∃ n : BitVec 10, exec (.nextcount c) s = .next { s with wires := s.wires ++ [.count n] } ∧
      n.toNat = (if c.toNat + 1 > 719 then 0 else c.toNat + 1) ∧
      ∃ b, wordBytesOf clock c.toNat = .ok b ∧ b.feedbackLow.toNat + 256 * b.feedbackHigh.toNat = n.toNat

/-- R56: the cut of the 10 bit counter into its low and its high byte. -/
def Obligations.CounterIsCutIntoTwoBytes : Prop :=
  ∀ n : BitVec 10,
    (feedbackLowByte n).toNat = n.toNat % 256 ∧ (feedbackHighByte n).toNat = n.toNat / 256 ∧
    (n.toNat ≤ 719 → (feedbackHighByte n).toNat ≤ 2) ∧
    ∀ j, 2 ≤ j → (feedbackHighByte n).toNat.testBit j = false

/-- Cyclic continuity (spec/42_rom_word.md section 4, the spec's own inference; FSM's property 3): over one cycle the
minute advances by one at every step but the one from 239 to 240, and no displayed time comes twice. -/
def Obligations.DisplayedTimeIsContinuous : Prop :=
  (∀ c, c < 719 → c ≠ 239 → minuteOfCycle clock (c + 1) = minuteOfCycle clock c + 1) ∧
  minuteOfCycle clock 239 = 719 ∧ minuteOfCycle clock 240 = 0 ∧
  ∀ c c', c < 720 → c' < 720 → digitSteps (minuteOfCycle clock c) = digitSteps (minuteOfCycle clock c') → c = c'

/-! ## The ROM word -/

/-- ROMWORD is total under every legal configuration (spec/42_rom_word.md section 3, the spec's own inference): at every
address it answers a word of `OutputBits` bits; in this clock, a value from 0 to 15. -/
def Obligations.RomwordIsTotal : Prop :=
  (∀ (cfg : Config) (a : Nat) (s : State), cfg.wf = true → a < 2 ^ cfg.inputBits →
    ∃ q, execUnder cfg (.romword a) s = .next { s with wires := s.wires ++ [.word q] } ∧ q < 2 ^ cfg.outputBits) ∧
  ∀ (a : Nat) (s : State), a < 2 ^ 13 →
    ∃ q, exec (.romword a) s = .next { s with wires := s.wires ++ [.word q] } ∧ q ≤ 15

/-- ROMWORD in closed form for this clock, over all 8192 addresses (spec/42_rom_word.md section 3 with the closed forms of
its section 1 and of spec/41_serializer.md section 2, the spec's own inferences, and the counter and the packed bytes of
its section 2). -/
def Obligations.RomwordClosedForm : Prop :=
  ∀ (a : Nat) (s : State), a < 8192 →
    exec (.romword a) s = .next { s with wires := s.wires ++ [.word (closedWord a)] }

/-- The word is the composition of the other operations that spec/42_rom_word.md section 3 writes out: the program that
evaluates them one after another, each on the wires of the lines before, ends with the word that ROMWORD itself gives. For
every legal configuration with the layout of the rule, and every address. That wires are named by position, from an empty
list, and that a slice is written as DECODE is the model's own (log entry 21). -/
def Obligations.RomwordIsItsExpansion : Prop :=
  ∀ (cfg : Config) (a : Nat) (s t : State), cfg.wf = true → cfg.layout = clockLayout → a < 2 ^ cfg.inputBits →
    s.wires = [] →
    ∃ rs q, runProgram (wordProgram cfg a) s = .next { s with wires := rs } ∧ rs.length = 16 ∧
      rs[15]? = some (.dstOut q) ∧
      execUnder cfg (.romword a) t = .next { t with wires := t.wires ++ [.word q] }

/-- R52: each output bit is its serialized bit ORed onto the default, and every other bit retains the default, for every
legal configuration with the layout of the rule. -/
def Obligations.OutputBitsAndTheirDefaults : Prop :=
  ∀ (cfg : Config) (a : Nat), cfg.wf = true → cfg.layout = clockLayout →
    ∃ (b : WordBytes) (lLow lHigh lMin lHour : Bool) (q : Nat),
      wordBytesOf cfg (a / 8 % 1024) = .ok b ∧
      frameBit b.feedbackLow (a % 8) = .ok lLow ∧ frameBit b.feedbackHigh (a % 8) = .ok lHigh ∧
      frameBit b.minute (a % 8) = .ok lMin ∧ frameBit b.hour (a % 8) = .ok lHour ∧
      romWord cfg a = .ok q ∧ q < 2 ^ cfg.outputBits ∧
      q.testBit 0 = (cfg.defaultOutput.testBit 0 || lLow) ∧ q.testBit 1 = (cfg.defaultOutput.testBit 1 || lHigh) ∧
      q.testBit 2 = (cfg.defaultOutput.testBit 2 || lMin) ∧ q.testBit 3 = (cfg.defaultOutput.testBit 3 || lHour) ∧
      ∀ j, 4 ≤ j → j < cfg.outputBits → q.testBit j = cfg.defaultOutput.testBit j

/-- R81: the 3 bit field reaches positions 0 to 7 only, the start bit and data bits 0 to 6, so bit 7 of no byte is ever in
the image; of the four bytes only the low feedback byte ever has that bit set. -/
def Obligations.OnlyPositionsBelowEightAreReached : Prop :=
  (∀ (a : Nat) (s : State), a < 8192 →
    ∃ b q, wordBytesOf clock (a / 8) = .ok b ∧
      exec (.romword a) s = .next { s with wires := s.wires ++ [.word q] } ∧
      (a % 8 = 0 → q = 0) ∧
      (∀ k, a % 8 = k + 1 → k ≤ 6 ∧
        q.testBit 0 = b.feedbackLow.toNat.testBit k ∧ q.testBit 1 = b.feedbackHigh.toNat.testBit k ∧
        q.testBit 2 = b.minute.toNat.testBit k ∧ q.testBit 3 = b.hour.toNat.testBit k) ∧
      b.hour.toNat ≤ 0x12 ∧ b.minute.toNat ≤ 0x59 ∧ b.feedbackHigh.toNat ≤ 2) ∧
  ∃ b, wordBytesOf clock 127 = .ok b ∧ b.feedbackLow.toNat.testBit 7 = true

/-- With more than 13 address bits the word does not depend on the extra ones, and the image is the 8192 word table repeated
(spec/42_rom_word.md section 4); fewer than 13 are refused with ConfigurationError, whatever layout the configuration
carries, which is the model's choice (log entry 23). -/
def Obligations.ExtraAddressBitsAreIgnored : Prop :=
  (∀ (cfg : Config) (a : Nat), cfg.wf = true → cfg.layout = clockLayout → a < 2 ^ cfg.inputBits →
    (∃ q, romWord cfg a = .ok q ∧ romWord cfg (a % 8192) = .ok q) ∧
    ∀ j, j < cfg.outputBits / 8 → ∃ b,
      readByte (imageCells cfg cfg.wordCount) (a * (cfg.outputBits / 8) + j) = some b ∧
      readByte (imageCells cfg cfg.wordCount) (a % 8192 * (cfg.outputBits / 8) + j) = some b) ∧
  ∀ (cfg : Config) (s : State), (cfg.outputBits = 8 ∨ cfg.outputBits = 16) → cfg.inputBits < 13 →
    stepUnder cfg (execUnder cfg) s = .fault (.configurationError (.inputBits cfg.inputBits))

/-- Counter values outside the cycle (spec/70_reset_and_hazards.md section 3, the spec's own inference): the word is
defined, and its two feedback bits are 0 at every position. -/
def Obligations.CountersOutsideTheCycleFeedBackZero : Prop :=
  ∀ (a : Nat) (s : State), a < 8192 → 720 ≤ a / 8 →
    ∃ q, exec (.romword a) s = .next { s with wires := s.wires ++ [.word q] } ∧
      q.testBit 0 = false ∧ q.testBit 1 = false

/-- Every address holds a defined word, which is ROMWORD's of that address, in the image and in the function alike
(spec/20_memory.md section 1); a read gives its bytes, most significant first (its sections 2 and 3, the read being the
spec's own inference). That the address space is the function `memRead`, whether or not GENERATE has run, is the model's
reading (log entry 20). -/
def Obligations.EveryAddressHoldsAWord : Prop :=
  ∀ (cfg : Config) (a : Nat), cfg.wf = true → a < 2 ^ cfg.inputBits →
    ∃ q bytes, romWord cfg a = .ok q ∧ q < 2 ^ cfg.outputBits ∧
      memRead cfg a = some bytes ∧ bytes.length = cfg.outputBits / 8 ∧
      (∀ j, j < cfg.outputBits / 8 → bytes[j]? = some (BitVec.ofNat 8 (q / 256 ^ (cfg.outputBits / 8 - 1 - j)))) ∧
      ∀ j, j < cfg.outputBits / 8 →
        readByte (imageCells cfg cfg.wordCount) (a * (cfg.outputBits / 8) + j) = bytes[j]?

/-! ## Faults and the startup check -/

/-- The complete list of the causes of ConfigurationError (spec/60_exceptions.md section 1); it is reported before any work,
whatever is presented; the configuration of this clock passes. That the bound of 13 address bits holds whatever layout the
configuration carries is the model's choice (log entry 23). -/
def Obligations.ConfigurationErrorCauses : Prop :=
  (∀ (cfg : Config) (s : State),
    ((cfg.outputBits ≠ 8 ∧ cfg.outputBits ≠ 16) ∨ cfg.inputBits < 13) ↔
      ∃ c, stepUnder cfg (execUnder cfg) s = .fault (.configurationError c)) ∧
  (∀ (cfg : Config) (s : State) (run : Instr → State → Answer),
    (cfg.outputBits ≠ 8 ∧ cfg.outputBits ≠ 16) ∨ cfg.inputBits < 13 →
      ∃ c, stepUnder cfg run s = .fault (.configurationError c)) ∧
  clock.defect = none

/-- The order of the startup check (spec/70_reset_and_hazards.md section 2): with legal constants, a descriptor of the
layout that is not well-formed for its word is an ArgumentError before anything is evaluated. That a descriptor of another
length is refused too is the model's reading (log entry 8); this statement does not rest on it. -/
def Obligations.IllFormedLayoutIsArgumentError : Prop :=
  ∀ (cfg : Config) (s : State) (run : Instr → State → Answer),
    (cfg.outputBits = 8 ∨ cfg.outputBits = 16) → 13 ≤ cfg.inputBits →
    (descriptorWf cfg.inputBits cfg.layout.serial = false ∨ descriptorWf cfg.inputBits cfg.layout.count = false ∨
      descriptorWf cfg.outputBits cfg.layout.feedbackLow = false ∨
      descriptorWf cfg.outputBits cfg.layout.feedbackHigh = false ∨
      descriptorWf cfg.outputBits cfg.layout.minuteBit = false ∨
      descriptorWf cfg.outputBits cfg.layout.hourBit = false) →
    ∃ op v, stepUnder cfg run s = .fault (.argumentError op v)

/-- The complete list of what makes an operation fault: an out-of-range frame position, an ill-formed descriptor, a minute
outside the cycle; and the fault is ArgumentError with the offending value (spec/60_exceptions.md sections 1 and 2, the
completeness being the spec's own inference). That a presented operation answers for its descriptor, before its operands
are looked at, and what the fault records are the model's reading (log entries 5 and 15). -/
def Obligations.ArgumentErrorCauses : Prop :=
  ∀ (i : Instr) (s : State) (f : Fault), exec i s = .fault f ↔
    (∃ byte pos, i = .framebit byte pos ∧ 10 ≤ pos.toNat ∧ f = .argumentError .framebit (.position pos.toNat)) ∨
    (∃ w p src, i = .decode w p src ∧ descriptorWf w p = false ∧ f = .argumentError .decode (.descriptor w p)) ∨
    (∃ w p dst val, i = .encode w p dst val ∧ descriptorWf w p = false ∧
      f = .argumentError .encode (.descriptor w p)) ∨
    ∃ m, i = .timedigits m ∧ 720 ≤ m.toNat ∧ f = .argumentError .timedigits (.minute m.toNat)

/-- The theorem of spec/60_exceptions.md section 6 (R115, the spec's own inference): with this clock's configuration ROMWORD
faults at no address, and the primary block faults nowhere but in FRAMEBIT from position 10 on, and there only when it is
driven directly, since every position that ROMWORD decodes has its line level. -/
def Obligations.OnlyFramebitFaultsInThePrimaryBlock : Prop :=
  (∀ (a : Nat) (s : State) (f : Fault), exec (.romword a) s ≠ .fault f) ∧
  (∀ (i : Instr) (s : State) (f : Fault), primaryOperation i →
    (exec i s = .fault f ↔
      ∃ byte pos, i = .framebit byte pos ∧ 10 ≤ pos.toNat ∧ f = .argumentError .framebit (.position pos.toNat))) ∧
  ∀ (byte : Byte) (a : Nat), ∃ level, frameBit byte (gather clock.layout.serial a) = .ok level

/-- An operation completes exactly when it is well-formed: a well-formed descriptor, operands that its ports can hold, a
frame position 0 to 9, a minute 0 to 719, an address of `InputBits` bits, no reserved code (spec/60_exceptions.md sections
2 and 6, the spec's own inference; the ports by log entry 6). A destination of ENCODE that is not clear completes too. -/
def Obligations.OperationsCompleteExactlyWhenWellFormed : Prop :=
  ∀ (i : Instr) (s : State),
    i.wf clock = true ↔ ∃ r, exec i s = .next { s with wires := s.wires ++ [r] }

/-- R16: an operation is a pure function of its operands: its answer is the same in every state, and its only effect is
its result. -/
def Obligations.OperationsArePureFunctions : Prop :=
  ∃ eval : Instr → Except (Fault ⊕ Refusal) Result, ∀ (i : Instr) (s : State),
    exec i s = match eval i with
      | .ok r => .next { s with wires := s.wires ++ [r] }
      | .error (.inl f) => .fault f
      | .error (.inr r) => .refused r

/-- Select code 111 is refused in every state (spec/30_encoding.md section 9), and a step at which it is presented refuses;
that it stands in the low bits of the first byte presented, and that the instances presented after it are built first, is
the model's own (log entries 1, 3 and 5). -/
def Obligations.ReservedSelectIsRefused : Prop :=
  (∀ s : State, exec .reserved s = .refused .reservedSelect) ∧
  ∀ (s : State) (b : Byte) (rest : List Byte), s.enumerator = .idle → s.inputs = b :: rest → b.toNat % 8 = 7 →
    presentedDefect rest = none → step s = .refused .reservedSelect

/-! ## Presenting an operation -/

/-- The step runs the operation that the inputs present, with the inputs moved past it; a static defect of an operation
presented after it comes first; bytes that present none are refused by name (spec/30_encoding.md section 7 and
spec/60_exceptions.md section 2; the request format and the look ahead are the model's own, log entries 1 to 3 and 5). -/
def Obligations.StepRunsThePresentedOperation : Prop :=
  ∀ s : State, s.enumerator = .idle →
    (∀ i rest, decodeInstr s.inputs = .ok (i, rest) → presentedDefect rest = none →
      step s = exec i { s with inputs := rest }) ∧
    (∀ i rest f, decodeInstr s.inputs = .ok (i, rest) → operationDefect i = none → presentedDefect rest = some f →
      step s = .fault f) ∧
    ∀ e, decodeInstr s.inputs = .error e → step s = .refused (.rejected e)

/-- Static defects come before any evaluation (spec/60_exceptions.md section 2, spec/70_reset_and_hazards.md section 2):
what a static defect is, and that the first one among the operations presented, or among the lines of a program, is the
answer whatever the operations before it are. That this looks at what is presented is the model's reading (log entry
5). -/
def Obligations.InstancesAreBuiltBeforeAnyEvaluation : Prop :=
  (∀ (i : Instr) (f : Fault), operationDefect i = some f ↔
    (∃ w p src, i = .decode w p src ∧ descriptorWf w p = false ∧ f = .argumentError .decode (.descriptor w p)) ∨
    ∃ w p dst val, i = .encode w p dst val ∧ descriptorWf w p = false ∧
      f = .argumentError .encode (.descriptor w p)) ∧
  (∀ (l : Line) (f : Fault), lineDefect l = some f ↔
    (∃ w p src, l = .decode w p src ∧ descriptorWf w p = false ∧ f = .argumentError .decode (.descriptor w p)) ∨
    ∃ w p dst val, l = .encode w p dst val ∧ descriptorWf w p = false ∧
      f = .argumentError .encode (.descriptor w p)) ∧
  (∀ (ops : List Instr) (i : Instr) (f : Fault) (bytes : List Byte) (s : State), s.enumerator = .idle →
    s.inputs = ops.flatMap encodeInstr ++ (encodeInstr i ++ bytes) → (∀ j ∈ ops, operationDefect j = none) →
    operationDefect i = some f → step s = .fault f) ∧
  ∀ (ls ls' : List Line) (l : Line) (f : Fault) (s : State), (∀ k ∈ ls, lineDefect k = none) →
    lineDefect l = some f → runProgram (ls ++ l :: ls') s = .fault f

/-- Reading what was written gives the operation again, every operand at every value, whatever bytes follow (the request
format is the model's own, log entries 1 and 2). -/
def Obligations.RequestsRoundTrip : Prop :=
  ∀ (i : Instr) (rest : List Byte), decodeInstr (encodeInstr i ++ rest) = .ok (i, rest)

/-- The select code, the low three bits of the first byte, says which operation is presented (Table E5 of
spec/30_encoding.md section 7; that it stands in the first byte is the model's own, log entry 1). -/
def Obligations.SelectCodeNamesTheOperation : Prop :=
  ∀ (b : Byte) (bytes rest : List Byte) (i : Instr), decodeInstr (b :: bytes) = .ok (i, rest) →
    i.select = b.toNat % 8

/-- A few requests written out byte by byte are the operations they stand for. -/
def Obligations.WrittenRequestsAreRead : Prop :=
  decodeInstr [0x00, 0x08, 0x04, 7, 3, 2, 0, 0xB4, 0x01] = .ok (.decode 8 [7, 3, 2, 0] 0xB4, []) ∧
  decodeInstr [0x01, 0x08, 0x04, 2, 4, 5, 7, 0x00, 0x0B] = .ok (.encode 8 [2, 4, 5, 7] 0 11, []) ∧
  decodeInstr [0x02, 0x41, 0x07] = .ok (.framebit 0x41 7, []) ∧
  decodeInstr [0x03, 0xE0, 0x03] = .ok (.timedigits 480, []) ∧
  decodeInstr [0x04, 0x05, 0x09] = .ok (.bcdpack 5 9, []) ∧
  decodeInstr [0x05, 0xCF, 0x05] = .ok (.nextcount 719, []) ∧
  decodeInstr [0x06, 0x9D, 0x0B] = .ok (.romword 1437, []) ∧
  decodeInstr [0x07] = .ok (.reserved, [])

/-! ## GENERATE and the image -/

/-- The Sink is opened before the first word, and the address then stands at 0 (spec/42_rom_word.md section 4; one Sink
action a step, the start from outside and the environment's choice at it are the model's own, log entries 9 to 11). -/
def Obligations.GenerateOpensAtAddressZero : Prop :=
  ∀ (s : State) (failure : Option SinkEvent), failure ≠ some .openSink →
    step (s.startGenerate failure) = .next { s with enumerator := .writing failure 0 [] }

/-- One pass of the enumeration: the word of the address is appended right after the words before it, most significant
byte first, and the address advances by one (spec/20_memory.md sections 2 and 3; one Sink action a step is the model's
own, log entry 9). -/
def Obligations.EnumeratorAppendsTheNextWord : Prop :=
  ∀ (cfg : Config) (s : State) (run : Instr → State → Answer) (failure : Option SinkEvent) (a : Nat),
    cfg.wf = true → a < 2 ^ cfg.inputBits → failure ≠ some (.append a) →
    s.enumerator = .writing failure a (imageCells cfg a) →
    ∃ bytes, memRead cfg a = some bytes ∧
      stepUnder cfg run s = .next { s with
        enumerator := .writing failure (a + 1) (imageCells cfg a ++ cellsFrom (a * (cfg.outputBits / 8)) bytes) }

/-- `MemWrite` (spec/20_memory.md section 3, the spec's own inference): legal exactly when the words before the address
have been appended, the width is that of a word and the value fits it; it extends the file by the bytes of the value, most
significant first. -/
def Obligations.AppendExtendsTheImage : Prop :=
  ∀ (cfg : Config) (a n v : Nat) (bytes : List Byte),
    (bytes.length = a * (cfg.outputBits / 8) ∧ n = cfg.outputBits / 8 ∧ v < 2 ^ cfg.outputBits →
      ∃ more : List Byte, memWrite cfg a n v (cellsFrom 0 bytes) = some (cellsFrom 0 (bytes ++ more)) ∧
        more.length = n ∧ ∀ j, j < n → more[j]? = some (BitVec.ofNat 8 (v / 256 ^ (n - 1 - j)))) ∧
    (¬ (bytes.length = a * (cfg.outputBits / 8) ∧ n = cfg.outputBits / 8 ∧ v < 2 ^ cfg.outputBits) →
      memWrite cfg a n v (cellsFrom 0 bytes) = none)

/-- An append is legal only as the next one (spec/20_memory.md section 3, the spec's own inference): a Sink that does not
hold the words below the address is left as it is, and the model refuses by name (log entry 13). -/
def Obligations.AppendsOutOfOrderAreRefused : Prop :=
  ∀ (cfg : Config) (s : State) (run : Instr → State → Answer) (failure : Option SinkEvent) (a : Nat) (sink : Memory),
    cfg.wf = true → a < 2 ^ cfg.inputBits → failure ≠ some (.append a) →
    s.enumerator = .writing failure a sink → sink.length ≠ a * (cfg.outputBits / 8) →
    stepUnder cfg run s = .refused (.illegalAppend a)

/-- IOError arises only in GENERATE, at the opening, at an append or at the closing, as the environment chooses
(spec/60_exceptions.md section 1). That the choice is one event fixed at the start of the run, and one Sink action a step,
is the model's own (log entries 11 and 9). -/
def Obligations.SinkFailureCauses : Prop :=
  ∀ (cfg : Config) (s : State) (e : SinkEvent), cfg.wf = true →
    (stepUnder cfg (execUnder cfg) s = .fault (.ioError e) ↔
      (s.enumerator = .opening (some .openSink) ∧ e = .openSink) ∨
      (∃ a sink, s.enumerator = .writing (some (.append a)) a sink ∧ a < 2 ^ cfg.inputBits ∧ e = .append a) ∨
      ∃ a sink, s.enumerator = .writing (some .closeSink) a sink ∧ 2 ^ cfg.inputBits ≤ a ∧ e = .closeSink)

/-- A run whose Sink never fails ends with the whole image, `2^InputBits` words, word `k` the word of address `k`
(spec/42_rom_word.md section 4, spec/20_memory.md section 2); nothing else has changed. For every legal configuration, and
so for this clock's machine. The number of steps and the start from outside are the model's own (log entries 9 and
10). -/
def Obligations.GenerateWritesTheWholeImage : Prop :=
  (∀ (cfg : Config) (s : State), cfg.wf = true →
    ∃ image : Memory,
      runSteps (stepUnder cfg (execUnder cfg)) (2 ^ cfg.inputBits + 2) (s.startGenerate none) =
        .next { s with enumerator := .idle, image := image } ∧
      image.length = 2 ^ cfg.inputBits * (cfg.outputBits / 8) ∧
      ∀ k, k < 2 ^ cfg.inputBits → ∃ bytes, memRead cfg k = some bytes ∧
        ∀ j, j < cfg.outputBits / 8 → readByte image (k * (cfg.outputBits / 8) + j) = bytes[j]?) ∧
  ∀ s : State, runSteps step 8194 (s.startGenerate none) =
    .next { s with enumerator := .idle, image := imageCells clock 8192 }

/-- A run produces the whole image or none (spec/42_rom_word.md section 4): a run that no Sink failure meets changes nothing
but the Enumerator until its last step, which gives the whole image; a run that meets one changes nothing but the
Enumerator until it ends in IOError, for good. The steps, the one failure of a run and that an earlier image stays
meanwhile are the model's own (log entries 9, 11 and 12). -/
def Obligations.GenerateIsAllOrNothing : Prop :=
  ∀ (cfg : Config) (s : State), cfg.wf = true →
    (∀ failure : Option SinkEvent, (failure = none ∨ ∃ a, 2 ^ cfg.inputBits ≤ a ∧ failure = some (.append a)) →
      (∀ k, k ≤ 2 ^ cfg.inputBits + 1 → ∃ e,
        runSteps (stepUnder cfg (execUnder cfg)) k (s.startGenerate failure) = .next { s with enumerator := e }) ∧
      runSteps (stepUnder cfg (execUnder cfg)) (2 ^ cfg.inputBits + 2) (s.startGenerate failure) =
        .next { s with enumerator := .idle, image := imageCells cfg (2 ^ cfg.inputBits) }) ∧
    ∀ e : SinkEvent, (e = .openSink ∨ e = .closeSink ∨ ∃ a, a < 2 ^ cfg.inputBits ∧ e = .append a) →
      ∃ k, k ≤ 2 ^ cfg.inputBits + 2 ∧
        (∀ j, j < k → ∃ e', runSteps (stepUnder cfg (execUnder cfg)) j (s.startGenerate (some e)) =
          .next { s with enumerator := e' }) ∧
        ∀ m, k ≤ m → runSteps (stepUnder cfg (execUnder cfg)) m (s.startGenerate (some e)) = .fault (.ioError e)

/-- R35: the byte order of the image: with `OutputBits` = 8 one byte a word, with 16 the high byte first. -/
def Obligations.ImageByteOrder : Prop :=
  ∀ (cfg : Config) (k : Nat), cfg.wf = true → k < 2 ^ cfg.inputBits →
    ∃ q, romWord cfg k = .ok q ∧ q < 2 ^ cfg.outputBits ∧
      (cfg.outputBits = 8 → readByte (imageCells cfg cfg.wordCount) k = some (BitVec.ofNat 8 q)) ∧
      (cfg.outputBits = 16 →
        readByte (imageCells cfg cfg.wordCount) (2 * k) = some (BitVec.ofNat 8 (q / 256)) ∧
        readByte (imageCells cfg cfg.wordCount) (2 * k + 1) = some (BitVec.ofNat 8 (q % 256)))

/-- A run of GENERATE has no suspension point (spec/20_memory.md section 5): while it is in progress a step evaluates no
operation, so it neither takes inputs nor assigns wires. That the operations presented wait until the run has ended is the
model's reading of "no suspension points" (log entry 10). -/
def Obligations.RunsAreNotSuspended : Prop :=
  ∀ s t : State, s.enumerator ≠ .idle → step s = .next t → t.inputs = s.inputs ∧ t.wires = s.wires

/-- The invariant that every step keeps: the Sink holds exactly the words below the address the Enumerator stands at, and
the image is absent or whole (spec/20_memory.md section 2, spec/42_rom_word.md section 4; the Enumerator's steps and the
image as cells by log entries 9 and 12). -/
def Obligations.StepKeepsTheImageInvariant : Prop :=
  ∀ s t : State, s.inv clock → step s = .next t → t.inv clock

/-- The invariant holds at the start (the start itself is the model's, log entry 16). -/
def Obligations.ResetMeetsTheImageInvariant : Prop :=
  State.reset.inv clock ∧ State.reset.memoriesWf

/-- Every memory keeps its canonical form, offsets strictly rising, from every state and under every configuration. The
form is the model's representation of the flat file of spec/20_memory.md section 2 (log entry 12). -/
def Obligations.StepKeepsMemoriesCanonical : Prop :=
  ∀ (cfg : Config) (s t : State), s.memoriesWf → stepUnder cfg (execUnder cfg) s = .next t → t.memoriesWf

/-! ## Programs -/

/-- A program that completes has assigned one result per line, after the wires there were, and changed nothing else (wires
by position are the model's own, log entry 21). -/
def Obligations.ProgramsAssignOneResultPerLine : Prop :=
  ∀ (ls : List Line) (s t : State), runProgram ls s = .next t →
    ∃ rs : List Result, rs.length = ls.length ∧ t = { s with wires := s.wires ++ rs }

/-- A fault ends a program: the lines after it are not evaluated, whatever they are, once every instance of the program has
been built (spec/60_exceptions.md sections 2 and 3; programs are the caller's composition, log entry 21). -/
def Obligations.ProgramsEndAtAFault : Prop :=
  ∀ (ls ls' : List Line) (l : Line) (s t : State) (f : Fault), programDefect (ls ++ l :: ls') = none →
    runProgram ls s = .next t → runLine l t = .fault f → runProgram (ls ++ l :: ls') s = .fault f
end

