-- ==== Sys2Proof/Laws/Codec.lean ====
section
/-! SUPPORT. What gather and scatter do, bit by bit. -/

namespace Sys2Proof.Machine

/-- One bit placed at one position. -/
theorem testBit_toNat_shiftLeft (b : Bool) (p j : Nat) :
    (b.toNat <<< p).testBit j = (decide (j = p) && b) := by
  rw [Nat.testBit_shiftLeft]
  cases b
  · simp
  · by_cases h : j = p
    · simp [h]
    · by_cases hj : p ≤ j
      · obtain ⟨m, hm⟩ : ∃ m, j - p = m + 1 := ⟨j - p - 1, by omega⟩
        simp [h, hm, Nat.testBit_succ]
      · simp [h, hj]

/-- The gather loop, bit by bit: bits already set stay, and the rest of the list fills the bits from `k` on. -/
theorem gatherFrom_testBit (src : Nat) (p : Descriptor) : ∀ k val j,
    (gatherFrom src k p val).testBit j =
      (val.testBit j || (decide (k ≤ j) && (p[j - k]?.map src.testBit).getD false)) := by
  induction p with
  | nil => intro k val j; simp [gatherFrom]
  | cons x xs ih =>
    intro k val j
    simp only [gatherFrom, ih, Nat.testBit_or, testBit_toNat_shiftLeft]
    rcases Nat.lt_trichotomy j k with h | h | h
    · have h1 : ¬ k + 1 ≤ j := by omega
      have h2 : ¬ k ≤ j := by omega
      have h3 : ¬ j = k := by omega
      simp [h1, h2, h3]
    · subst h
      have h1 : ¬ j + 1 ≤ j := by omega
      simp [h1]
    · have h1 : k + 1 ≤ j := by omega
      have h2 : k ≤ j := by omega
      have h3 : ¬ j = k := by omega
      have h4 : j - k = (j - (k + 1)) + 1 := by omega
      simp [h1, h2, h3, h4]

/-- DECODE's result bits (R65), for every list. -/
theorem gather_testBit (p : Descriptor) (src j : Nat) :
    (gather p src).testBit j = (p[j]?.map src.testBit).getD false := by
  simp [gather, gatherFrom_testBit]

/-- DECODE's result bit at a list index (R65). -/
theorem gather_testBit_of_lt {p : Descriptor} (src : Nat) {k : Nat} (h : k < p.length) :
    (gather p src).testBit k = src.testBit p[k] := by
  simp [gather_testBit, h]

/-- DECODE's result has no bit beyond the field (R65). -/
theorem gather_lt (p : Descriptor) (src : Nat) : gather p src < 2 ^ p.length := by
  apply Nat.lt_pow_two_of_testBit
  intro j hj
  rw [gather_testBit, List.getElem?_eq_none hj]
  rfl

/-- The scatter loop, bit by bit. -/
theorem scatterFrom_testBit (val : Nat) (p : Descriptor) : ∀ k dst j,
    (scatterFrom val k p dst).testBit j = true ↔
      dst.testBit j = true ∨ ∃ i, p[i]? = some j ∧ val.testBit (k + i) = true := by
  induction p with
  | nil => intro k dst j; simp [scatterFrom]
  | cons x xs ih =>
    intro k dst j
    simp only [scatterFrom, ih, Nat.testBit_or, testBit_toNat_shiftLeft, Bool.or_eq_true, Bool.and_eq_true,
      decide_eq_true_eq]
    constructor
    · rintro ((h | ⟨rfl, h⟩) | ⟨i, hi, hv⟩)
      · exact .inl h
      · exact .inr ⟨0, by simp, by simpa using h⟩
      · exact .inr ⟨i + 1, by simpa using hi, by rwa [show k + (i + 1) = k + 1 + i by omega]⟩
    · rintro (h | ⟨i, hi, hv⟩)
      · exact .inl (.inl h)
      · cases i with
        | zero => exact .inl (.inr ⟨by simpa [eq_comm] using hi, by simpa using hv⟩)
        | succ i => exact .inr ⟨i, by simpa using hi, by rwa [show k + 1 + i = k + (i + 1) by omega]⟩

/-- ENCODE's result bits (R66), for every list: a bit is set when it was set or when some listed place of it receives
a 1. -/
theorem scatter_testBit (p : Descriptor) (dst val j : Nat) :
    (scatter p dst val).testBit j = true ↔
      dst.testBit j = true ∨ ∃ i, p[i]? = some j ∧ val.testBit i = true := by
  simp [scatter, scatterFrom_testBit]

/-- ENCODE leaves a position that is not listed (R66, R71). -/
theorem scatter_testBit_of_not_mem {p : Descriptor} (dst val : Nat) {j : Nat} (h : j ∉ p) :
    (scatter p dst val).testBit j = dst.testBit j := by
  rw [Bool.eq_iff_iff, scatter_testBit]
  constructor
  · rintro (h' | ⟨i, hi, -⟩)
    · exact h'
    · exact absurd (List.mem_of_getElem? hi) h
  · exact .inl

/-- ENCODE ORs value bit `k` into the `k`-th listed position, when the positions are distinct (R66). -/
theorem scatter_testBit_getElem {p : Descriptor} (hp : p.Nodup) (dst val : Nat) {k : Nat} (h : k < p.length) :
    (scatter p dst val).testBit p[k] = (dst.testBit p[k] || val.testBit k) := by
  rw [Bool.eq_iff_iff, scatter_testBit, Bool.or_eq_true]
  constructor
  · rintro (h' | ⟨i, hi, hv⟩)
    · exact .inl h'
    · obtain ⟨hi', he⟩ := List.getElem?_eq_some_iff.1 hi
      have : i = k := (List.Nodup.getElem_inj_iff hp).1 he
      exact .inr (this ▸ hv)
  · rintro (h' | hv)
    · exact .inl h'
    · exact .inr ⟨k, List.getElem?_eq_getElem h, hv⟩

/-- ENCODE stays within the word when its positions do (R66, R49 (b)). -/
theorem scatter_lt {w : Nat} {p : Descriptor} (hp : ∀ x ∈ p, x < w) {dst : Nat} (hd : dst < 2 ^ w) (val : Nat) :
    scatter p dst val < 2 ^ w := by
  apply Nat.lt_pow_two_of_testBit
  intro j hj
  have hm : j ∉ p := fun h => absurd (hp j h) (by omega)
  rw [scatter_testBit_of_not_mem dst val hm]
  exact Nat.testBit_lt_two_pow (lt_of_lt_of_le hd (Nat.pow_le_pow_right (by norm_num) hj))

/-- The two fields of the address word (spec/30_encoding.md R50, R51). -/
theorem gather_serial (a : Nat) : gather clockLayout.serial a = a % 8 := by
  apply Nat.eq_of_testBit_eq
  intro j
  rw [gather_testBit, show (8 : Nat) = 2 ^ 3 by norm_num, Nat.testBit_mod_two_pow]
  rcases j with _ | _ | _ | j <;> simp [clockLayout]

theorem gather_count (a : Nat) : gather clockLayout.count a = a / 8 % 1024 := by
  apply Nat.eq_of_testBit_eq
  intro j
  rw [gather_testBit, show (1024 : Nat) = 2 ^ 10 by norm_num, Nat.testBit_mod_two_pow,
    show (8 : Nat) = 2 ^ 3 by norm_num, Nat.testBit_div_two_pow]
  rcases j with _ | _ | _ | _ | _ | _ | _ | _ | _ | _ | j <;> simp [clockLayout]

end Sys2Proof.Machine
end

