-- ==== Sys2Proof/Laws/Rom.lean ====
section
/-! SUPPORT. The serializer, the time model, the packing and the ROM word: one lemma per shared function that says what it
answers. -/

namespace Sys2Proof.Machine

theorem frameBit_start (b : Byte) : frameBit b 0 = .ok false := rfl

theorem frameBit_stop (b : Byte) : frameBit b 9 = .ok true := rfl

theorem frameBit_data (b : Byte) {k : Nat} (h : k < 8) : frameBit b (k + 1) = .ok (b.getLsbD k) := by
  have h1 : k + 1 ≤ 8 := by omega
  simp [frameBit, h1]

theorem frameBit_error (b : Byte) {pos : Nat} (h : 10 ≤ pos) :
    frameBit b pos = .error (.argumentError .framebit (.position pos)) := by
  have h0 : pos ≠ 0 := by omega
  have h1 : ¬ pos ≤ 8 := by omega
  have h2 : pos ≠ 9 := by omega
  simp [frameBit, h0, h1, h2]

/-- The serializer's line level as a number's bit: `F(b) = 512 + 2 × b` (spec/30_encoding.md R54). -/
theorem frameBit_of_le (b : Byte) {pos : Nat} (h : pos ≤ 9) :
    frameBit b pos = .ok ((512 + 2 * b.toNat).testBit pos) := by
  have hb : b.toNat < 2 ^ 8 := b.isLt
  rcases Nat.eq_zero_or_pos pos with rfl | h0
  · rw [frameBit_start, Nat.testBit_zero]
    congr 1
    simp
  · obtain ⟨k, rfl⟩ : ∃ k, pos = k + 1 := ⟨pos - 1, by omega⟩
    have e : (512 + 2 * b.toNat).testBit (k + 1) = (2 ^ 8 + b.toNat).testBit k := by
      rw [Nat.testBit_succ]
      congr 1
      omega
    rw [e]
    rcases Nat.lt_or_ge k 8 with hk | hk
    · rw [frameBit_data b hk, Nat.testBit_two_pow_add_gt hk, BitVec.getLsbD]
    · obtain rfl : k = 8 := by omega
      rw [frameBit_stop, Nat.testBit_two_pow_add_eq, Nat.testBit_lt_two_pow hb]
      rfl

/-- A subtraction loop leaves remainder and quotient, when one round undoes the bound. -/
theorem subtractWhile_eq (d : Nat) (hd : 0 < d) : ∀ fuel i n, i ≤ fuel →
    subtractWhile (d - 1) d fuel i n = (i % d, n + i / d) := by
  intro fuel
  induction fuel with
  | zero =>
    intro i n h
    obtain rfl : i = 0 := by omega
    simp [subtractWhile]
  | succ f ih =>
    intro i n h
    unfold subtractWhile
    split_ifs with hi
    · have h1 : i % d = (i - d) % d := by rw [Nat.mod_eq_sub_mod (by omega)]
      have h2 : i / d = (i - d) / d + 1 := by
        rw [Nat.div_eq i d, if_pos ⟨hd, by omega⟩]
      rw [ih (i - d) (n + 1) (by omega), h1, h2]
      congr 1
      omega
    · rw [Nat.mod_eq_of_lt (by omega), Nat.div_eq_of_lt (by omega)]
      rfl

/-- The six steps in closed form, for every natural (spec/42_rom_word.md R83). -/
theorem digitSteps_eq (i : Nat) :
    digitSteps i = finishDigits (i / 600) (i % 600 / 60) (i % 600 % 60 / 10) (i % 600 % 60 % 10) := by
  have h1 := subtractWhile_eq 600 (by norm_num) i i 0 le_rfl
  have h2 := subtractWhile_eq 60 (by norm_num) (i % 600) (i % 600) 0 le_rfl
  have h3 := subtractWhile_eq 10 (by norm_num) (i % 600 % 60) (i % 600 % 60) 0 le_rfl
  norm_num at h1 h2 h3
  simp [digitSteps, h1, h2, h3]

theorem timeDigits_of_lt {i : Nat} (h : i < 720) : timeDigits i = .ok (digitSteps i) := by
  simp [timeDigits, cycle, h]

theorem timeDigits_of_ge {i : Nat} (h : 720 ≤ i) :
    timeDigits i = .error (.argumentError .timedigits (.minute i)) := by
  have : ¬ i < 720 := by omega
  simp [timeDigits, cycle, this]

theorem minuteOfCycle_lt (cfg : Config) (c : Nat) : minuteOfCycle cfg c < 720 := Nat.mod_lt _ (by norm_num [cycle])

theorem nextCount_toNat (c : BitVec 10) :
    (nextCount c).toNat = if c.toNat + 1 > 719 then 0 else c.toNat + 1 := by
  unfold nextCount
  norm_num [cycle]
  split_ifs with h
  · rfl
  · rw [BitVec.toNat_ofNat]
    omega

/-- The packed-digit byte as a number (spec/30_encoding.md R55). -/
theorem packDigits_toNat (tens units : BitVec 4) : (packDigits tens units).toNat = 16 * tens.toNat + units.toNat := by
  have h : ∀ t u : BitVec 4, (packDigits t u).toNat = 16 * t.toNat + u.toNat := by decide
  exact h tens units

theorem feedbackLowByte_toNat (n : BitVec 10) : (feedbackLowByte n).toNat = n.toNat % 256 := by
  simp [feedbackLowByte]

theorem feedbackHighByte_toNat (n : BitVec 10) : (feedbackHighByte n).toNat = n.toNat / 256 := by
  have := n.isLt
  simp [feedbackHighByte, Nat.shiftRight_eq_div_pow]
  omega

/-- The four bytes exist for every counter field (spec/42_rom_word.md R87, R91). -/
theorem wordBytesOf_ok (cfg : Config) (c : Nat) : ∃ b, wordBytesOf cfg c = .ok b := by
  rw [wordBytesOf, timeDigits_of_lt (minuteOfCycle_lt cfg c)]
  exact ⟨_, rfl⟩

/-- The word from its parts: with a position the frame has, ROMWORD answers, and packs the four levels. -/
theorem romWord_eq {cfg : Config} {a : Nat} {b : WordBytes} (hb : wordBytesOf cfg (gather cfg.layout.count a) = .ok b)
    (hp : gather cfg.layout.serial a ≤ 9) :
    romWord cfg a = .ok (packWord cfg
      ((512 + 2 * b.feedbackLow.toNat).testBit (gather cfg.layout.serial a))
      ((512 + 2 * b.feedbackHigh.toNat).testBit (gather cfg.layout.serial a))
      ((512 + 2 * b.minute.toNat).testBit (gather cfg.layout.serial a))
      ((512 + 2 * b.hour.toNat).testBit (gather cfg.layout.serial a))) := by
  unfold romWord
  simp only [hb, frameBit_of_le _ hp, bind, Except.bind]

@[simp] theorem bigEndian_length (n q : Nat) : (bigEndian n q).length = n := by simp [bigEndian]

@[simp] theorem emit_length (cfg : Config) (q : Nat) : (emit cfg q).length = cfg.wordBytes := by simp [emit]

end Sys2Proof.Machine
end

