-- ==== Sys2Proof/Laws/State.lean ====
section
/-! SUPPORT. One lemma per field per update of State, and the inversion lemmas of the shared wrappers. -/

namespace Sys2Proof.Machine

@[simp] theorem State.assign_inputs (s : State) (r : Result) : (s.assign r).inputs = s.inputs := rfl
@[simp] theorem State.assign_wires (s : State) (r : Result) : (s.assign r).wires = s.wires ++ [r] := rfl
@[simp] theorem State.assign_enumerator (s : State) (r : Result) : (s.assign r).enumerator = s.enumerator := rfl
@[simp] theorem State.assign_image (s : State) (r : Result) : (s.assign r).image = s.image := rfl

@[simp] theorem State.startGenerate_inputs (s : State) (f : Option SinkEvent) :
    (s.startGenerate f).inputs = s.inputs := rfl
@[simp] theorem State.startGenerate_wires (s : State) (f : Option SinkEvent) :
    (s.startGenerate f).wires = s.wires := rfl
@[simp] theorem State.startGenerate_enumerator (s : State) (f : Option SinkEvent) :
    (s.startGenerate f).enumerator = .opening f := rfl
@[simp] theorem State.startGenerate_image (s : State) (f : Option SinkEvent) :
    (s.startGenerate f).image = s.image := rfl

@[simp] theorem State.withFetchWord_inputs (s : State) (n w : Nat) :
    (s.withFetchWord n w).inputs = tableBytes n w := rfl
@[simp] theorem State.withFetchWord_wires (s : State) (n w : Nat) : (s.withFetchWord n w).wires = s.wires := rfl
@[simp] theorem State.withFetchWord_enumerator (s : State) (n w : Nat) :
    (s.withFetchWord n w).enumerator = .idle := rfl
@[simp] theorem State.withFetchWord_image (s : State) (n w : Nat) : (s.withFetchWord n w).image = s.image := rfl

@[simp] theorem State.reset_inputs : State.reset.inputs = [] := rfl
@[simp] theorem State.reset_wires : State.reset.wires = [] := rfl
@[simp] theorem State.reset_enumerator : State.reset.enumerator = .idle := rfl
@[simp] theorem State.reset_image : State.reset.image = [] := rfl

theorem deliver_ok (r : Result) (s : State) : deliver (.ok r) s = .next (s.assign r) := rfl
theorem deliver_error (f : Fault) (s : State) : deliver (.error f) s = .fault f := rfl

/-- A delivery that answers a next state had a result, and assigns it. -/
theorem deliver_next {r : Except Fault Result} {s t : State} (h : deliver r s = .next t) :
    ∃ v, r = .ok v ∧ t = s.assign v := by
  cases r with
  | ok v => exact ⟨v, rfl, by injection h with h; exact h.symm⟩
  | error f => exact absurd h (by simp [deliver, raise])

theorem withInstance_of_wf {op : Operation} {w : Nat} {p : Descriptor} (h : descriptorWf w p = true) (e : Answer) :
    withInstance op w p e = e := by simp [withInstance, instanceDefect, h]

theorem withInstance_of_not_wf {op : Operation} {w : Nat} {p : Descriptor} (h : descriptorWf w p = false) (e : Answer) :
    withInstance op w p e = .fault (.argumentError op (.descriptor w p)) := by
  simp [withInstance, instanceDefect, h, raise]

theorem withPort_of_lt {op : Operation} {n v : Nat} (h : v < 2 ^ n) (e : Answer) : withPort op n v e = e := by
  simp [withPort, h]

theorem withPort_of_ge {op : Operation} {n v : Nat} (h : ¬ v < 2 ^ n) (e : Answer) :
    withPort op n v e = .refused (.operandTooWide op) := by simp [withPort, h]

theorem withSink_of_ne {f : Option SinkEvent} {e : SinkEvent} (h : f ≠ some e) (a : Answer) : withSink f e a = a := by
  simp [withSink, h]

theorem withSink_of_eq (e : SinkEvent) (a : Answer) : withSink (some e) e a = .fault (.ioError e) := by
  simp [withSink, raise]

/-- R49, clause by clause. -/
theorem descriptorWf_iff {w : Nat} {p : Descriptor} :
    descriptorWf w p = true ↔ p ≠ [] ∧ (∀ x ∈ p, x < w) ∧ p.Nodup := by
  simp [descriptorWf, and_assoc]

/-- Everything a step can do under a legal configuration. -/
theorem stepUnder_of_defect_none {cfg : Config} (h : cfg.defect = none) (run : Instr → State → Answer) (s : State) :
    stepUnder cfg run s =
      match s.enumerator with
      | .idle => evaluateStep run s
      | .opening failure => openStep failure s
      | .writing failure a sink => writeStep cfg failure a sink s := by
  cases he : s.enumerator <;> simp only [stepUnder, h, he]

/-- The whole of a step under an illegal configuration (spec/60_exceptions.md R107). -/
theorem stepUnder_of_defect {cfg : Config} {d : BuildDefect} (h : cfg.defect = some d)
    (run : Instr → State → Answer) (s : State) : stepUnder cfg run s = .fault (defectFault d) := by
  simp only [stepUnder, h, raise]

/-- This clock's configuration passes the startup check (spec/60_exceptions.md R101). -/
theorem clock_defect : clock.defect = none := by decide

/-- An evaluation that answers a next state read an operation and ran it on the inputs after it. -/
theorem evaluateStep_next {run : Instr → State → Answer} {s t : State} (h : evaluateStep run s = .next t) :
    ∃ i rest, decodeInstr s.inputs = .ok (i, rest) ∧ run i { s with inputs := rest } = .next t := by
  unfold evaluateStep at h
  split at h
  · cases h
  · split at h
    · cases h
    · exact ⟨_, _, ‹_›, h⟩

/-- A static defect comes before any evaluation. -/
theorem evaluateStep_of_defect {s : State} {f : Fault} (h : presentedDefect s.inputs = some f)
    (run : Instr → State → Answer) : evaluateStep run s = .fault f := by
  simp only [evaluateStep, h, raise]

end Sys2Proof.Machine
end

