-- ==== Sys2Proof/Laws/Check.lean ====
section
/-! SUPPORT. What a legal configuration gives: the startup check clause by clause, and the ROM word that always exists. -/

namespace Sys2Proof.Machine

theorem layoutDefect_none {f : LayoutField} {w n : Nat} {p : Descriptor} :
    layoutDefect f w n p = none ↔ descriptorWf w p = true ∧ p.length = n := by
  unfold layoutDefect
  split_ifs with h <;> simp_all

/-- The startup check, clause by clause (spec/70_reset_and_hazards.md R118). -/
theorem defect_none_iff {cfg : Config} : cfg.defect = none ↔
    (cfg.outputBits = 8 ∨ cfg.outputBits = 16) ∧ 13 ≤ cfg.inputBits ∧
    (descriptorWf cfg.inputBits cfg.layout.serial = true ∧ cfg.layout.serial.length = 3) ∧
    (descriptorWf cfg.inputBits cfg.layout.count = true ∧ cfg.layout.count.length = 10) ∧
    (descriptorWf cfg.outputBits cfg.layout.feedbackLow = true ∧ cfg.layout.feedbackLow.length = 1) ∧
    (descriptorWf cfg.outputBits cfg.layout.feedbackHigh = true ∧ cfg.layout.feedbackHigh.length = 1) ∧
    (descriptorWf cfg.outputBits cfg.layout.minuteBit = true ∧ cfg.layout.minuteBit.length = 1) ∧
    (descriptorWf cfg.outputBits cfg.layout.hourBit = true ∧ cfg.layout.hourBit.length = 1) := by
  unfold Config.defect Layout.defect minInputBits
  split_ifs with h1 h2
  · simp only [false_iff]
    omega
  · simp only [false_iff]
    omega
  · simp only [Option.or_eq_none_iff, layoutDefect_none]
    exact ⟨fun h => ⟨by omega, by omega, h⟩, fun h => h.2.2⟩

theorem Config.wf_iff {cfg : Config} : cfg.wf = true ↔ cfg.defect = none := by simp [Config.wf]

/-- The serial field of a legal layout has 3 bits (spec/41_serializer.md R81). -/
theorem gather_serial_lt {cfg : Config} (h : cfg.defect = none) (a : Nat) : gather cfg.layout.serial a < 8 := by
  have := gather_lt cfg.layout.serial a
  rwa [(defect_none_iff.1 h).2.2.1.2] at this

/-- The packed word fits `OutputBits` (spec/42_rom_word.md R94). -/
theorem packWord_lt {cfg : Config} (h : cfg.defect = none) (bLow bHigh bMin bHour : Bool) :
    packWord cfg bLow bHigh bMin bHour < 2 ^ cfg.outputBits := by
  obtain ⟨-, -, -, -, h1, h2, h3, h4⟩ := defect_none_iff.1 h
  have h0 : trunc cfg.outputBits cfg.defaultOutput < 2 ^ cfg.outputBits := Nat.mod_lt _ (by positivity)
  exact scatter_lt (descriptorWf_iff.1 h4.1).2.1 (scatter_lt (descriptorWf_iff.1 h3.1).2.1
    (scatter_lt (descriptorWf_iff.1 h2.1).2.1 (scatter_lt (descriptorWf_iff.1 h1.1).2.1 h0 _) _) _) _

/-- No part of ROMWORD faults under a legal configuration, and the word fits. -/
theorem romWord_ok {cfg : Config} (h : cfg.defect = none) (a : Nat) :
    ∃ q, romWord cfg a = .ok q ∧ q < 2 ^ cfg.outputBits := by
  obtain ⟨b, hb⟩ := wordBytesOf_ok cfg (gather cfg.layout.count a)
  have := gather_serial_lt h a
  exact ⟨_, romWord_eq hb (by omega), packWord_lt h _ _ _ _⟩

/-- Reading an address of a legal configuration (spec/20_memory.md R40). -/
theorem memRead_of_lt {cfg : Config} {a q : Nat} (ha : a < cfg.wordCount) (hq : romWord cfg a = .ok q) :
    memRead cfg a = some (emit cfg q) := by
  simp [memRead, ha, hq]

theorem romBytes_succ (cfg : Config) (k : Nat) :
    romBytes cfg (k + 1) = romBytes cfg k ++ (memRead cfg k).getD [] := by
  simp [romBytes, List.range_succ, List.flatMap_append]

/-- Every word takes `OutputBits/8` bytes (spec/20_memory.md R34). -/
theorem romBytes_length {cfg : Config} (h : cfg.defect = none) : ∀ k, k ≤ cfg.wordCount →
    (romBytes cfg k).length = k * cfg.wordBytes := by
  intro k
  induction k with
  | zero => simp [romBytes]
  | succ k ih =>
    intro hk
    obtain ⟨q, hq, -⟩ := romWord_ok h k
    rw [romBytes_succ, List.length_append, ih (by omega), memRead_of_lt (by omega) hq]
    simp [Nat.succ_mul]

end Sys2Proof.Machine
end

