-- ==== Sys2Proof/Laws/Memory.lean ====
section
/-! SUPPORT. The image: read after write, the canonical form, the cells of a flat file. -/

namespace Sys2Proof.Machine

/-- Read after write: the written byte is read at its offset, every other offset reads as before. -/
theorem readByte_writeByte (m : Memory) (a b : Nat) (v : Byte) :
    readByte (writeByte m a v) b = if b = a then some v else readByte m b := by
  induction m with
  | nil => simp [writeByte, readByte, eq_comm]
  | cons c rest ih =>
    obtain ⟨c, x⟩ := c
    unfold writeByte
    by_cases h1 : a < c
    · by_cases h : b = a
      · simp [h1, h, readByte]
      · simp [h1, h, Ne.symm h, readByte]
    · by_cases h2 : a = c
      · subst h2
        by_cases h : b = a
        · simp [h, readByte]
        · simp [h, Ne.symm h, readByte]
      · by_cases h3 : c = b
        · subst h3
          simp [h1, h2, Ne.symm h2, readByte]
        · simp [h1, h2, h3, readByte, ih]

/-- Every offset of a memory is at least `lo`. -/
def Memory.from (lo : Nat) (m : Memory) : Prop := ∀ c ∈ m, lo ≤ c.1

theorem Memory.wf_cons {c : Host.Cell} {m : Memory} :
    Memory.wf (c :: m) = true ↔ Memory.from (c.1 + 1) m ∧ Memory.wf m = true := by
  induction m generalizing c with
  | nil => simp [Memory.wf, Memory.from]
  | cons d m ih =>
    rw [Memory.wf, Bool.and_eq_true, decide_eq_true_eq, ih]
    unfold Memory.from
    constructor
    · rintro ⟨h, h1, h2⟩
      refine ⟨fun e he => ?_, h1, h2⟩
      rcases List.mem_cons.1 he with rfl | he
      · exact h
      · have := h1 e he
        omega
    · rintro ⟨h, h1, h2⟩
      exact ⟨h d (by simp), h1, h2⟩

theorem writeByte_from {lo : Nat} {m : Memory} (h : Memory.from lo m) {a : Nat} (ha : lo ≤ a) (v : Byte) :
    Memory.from lo (writeByte m a v) := by
  induction m with
  | nil => simpa [writeByte, Memory.from] using ha
  | cons c m ih =>
    obtain ⟨b, x⟩ := c
    have hb : lo ≤ b := h (b, x) (by simp)
    have hm : Memory.from lo m := fun e he => h e (by simp [he])
    have hi := ih hm
    unfold writeByte
    split_ifs
    · intro e he
      simp only [List.mem_cons] at he
      rcases he with rfl | rfl | he
      · exact ha
      · exact hb
      · exact hm e he
    · intro e he
      rcases List.mem_cons.1 he with rfl | he
      · exact ha
      · exact hm e he
    · intro e he
      rcases List.mem_cons.1 he with rfl | he
      · exact hb
      · exact hi e he

/-- A write keeps the canonical form. -/
theorem writeByte_wf {m : Memory} (h : Memory.wf m = true) (a : Nat) (v : Byte) :
    Memory.wf (writeByte m a v) = true := by
  induction m with
  | nil => rfl
  | cons c m ih =>
    obtain ⟨b, x⟩ := c
    obtain ⟨h1, h2⟩ := Memory.wf_cons.1 h
    unfold writeByte
    split_ifs with hab hab'
    · exact Memory.wf_cons.2 ⟨fun e he => by
        rcases List.mem_cons.1 he with rfl | he
        · exact hab
        · have := h1 e he
          simp only at this ⊢
          omega, h⟩
    · subst hab'
      exact Memory.wf_cons.2 ⟨h1, h2⟩
    · exact Memory.wf_cons.2 ⟨writeByte_from h1 (by simp only; omega) v, ih h2⟩

theorem writeBytes_wf {vs : List Byte} : ∀ {m : Memory}, Memory.wf m = true → ∀ a,
    Memory.wf (writeBytes m a vs) = true := by
  induction vs with
  | nil => intro m h a; exact h
  | cons v vs ih => intro m h a; exact ih (writeByte_wf h a v) (a + 1)

/-- The Sink's append keeps the canonical form. -/
theorem memWrite_wf {cfg : Config} {a n v : Nat} {m m' : Memory} (hm : Memory.wf m = true)
    (h : memWrite cfg a n v m = some m') : Memory.wf m' = true := by
  unfold memWrite at h
  split_ifs at h
  injection h with h
  exact h ▸ writeBytes_wf hm _

theorem cellsFrom_append (xs ys : List Byte) : ∀ a,
    cellsFrom a (xs ++ ys) = cellsFrom a xs ++ cellsFrom (a + xs.length) ys := by
  induction xs with
  | nil => intro a; simp [cellsFrom]
  | cons x xs ih =>
    intro a
    have : a + 1 + xs.length = a + (xs.length + 1) := by omega
    simp [cellsFrom, ih, this]

@[simp] theorem cellsFrom_length (xs : List Byte) : ∀ a, (cellsFrom a xs).length = xs.length := by
  induction xs with
  | nil => intro a; rfl
  | cons x xs ih => intro a; simp [cellsFrom, ih]

theorem cellsFrom_from (xs : List Byte) : ∀ a, Memory.from a (cellsFrom a xs) := by
  induction xs with
  | nil => intro a; simp [cellsFrom, Memory.from]
  | cons x xs ih =>
    intro a c hc
    rcases List.mem_cons.1 hc with rfl | hc
    · exact le_rfl
    · have := ih (a + 1) c hc
      omega

/-- A flat file is in canonical form. -/
theorem cellsFrom_wf (xs : List Byte) : ∀ a, Memory.wf (cellsFrom a xs) = true := by
  induction xs with
  | nil => intro a; rfl
  | cons x xs ih => intro a; exact Memory.wf_cons.2 ⟨cellsFrom_from xs (a + 1), ih (a + 1)⟩

/-- The byte of a flat file at an offset. -/
theorem readByte_cellsFrom (xs : List Byte) : ∀ a k, readByte (cellsFrom a xs) (a + k) = xs[k]? := by
  induction xs with
  | nil => intro a k; simp [cellsFrom, readByte]
  | cons x xs ih =>
    intro a k
    cases k with
    | zero => simp [cellsFrom, readByte]
    | succ k =>
      have h := ih (a + 1) k
      rw [show a + 1 + k = a + (k + 1) by omega] at h
      simp [cellsFrom, readByte, h]

/-- Writing past every offset appends a cell. -/
theorem writeByte_append {m : Memory} {a : Nat} (h : ∀ c ∈ m, c.1 < a) (v : Byte) :
    writeByte m a v = m ++ [(a, v)] := by
  induction m with
  | nil => rfl
  | cons c m ih =>
    obtain ⟨b, x⟩ := c
    have hb : b < a := h (b, x) (by simp)
    have h1 : ¬ a < b := by omega
    have h2 : ¬ a = b := by omega
    simp [writeByte, h1, h2, ih (fun e he => h e (by simp [he]))]

theorem writeBytes_append (vs : List Byte) : ∀ {m : Memory} {a : Nat}, (∀ c ∈ m, c.1 < a) →
    writeBytes m a vs = m ++ cellsFrom a vs := by
  induction vs with
  | nil => intro m a h; simp [writeBytes, cellsFrom]
  | cons v vs ih =>
    intro m a h
    rw [writeBytes, writeByte_append h, ih (a := a + 1), cellsFrom]
    · simp
    · intro c hc
      rcases List.mem_append.1 hc with hc | hc
      · have := h c hc
        omega
      · simp only [List.mem_singleton] at hc
        subst hc
        simp

theorem cellsFrom_lt (xs : List Byte) : ∀ a, ∀ c ∈ cellsFrom a xs, c.1 < a + xs.length := by
  induction xs with
  | nil => intro a c hc; simp [cellsFrom] at hc
  | cons x xs ih =>
    intro a c hc
    rcases List.mem_cons.1 hc with rfl | hc
    · simp
    · have := ih (a + 1) c hc
      simp only [List.length_cons]
      omega

end Sys2Proof.Machine
end

