-- ==== Sys2Proof/Laws/Number.lean ====
section
/-! SUPPORT. Reading a number back after writing it: the parts of the request format, one lemma per reader. -/

namespace Sys2Proof

/-- A number is read back from its digits, whatever follows. -/
theorem readNumber_numberDigits (f : Nat) : ∀ v, v ≤ f → ∀ rest,
    readNumber (numberDigits f v ++ rest) = .ok (v, rest) := by
  induction f with
  | zero =>
    intro v hv rest
    obtain rfl : v = 0 := by omega
    simp [numberDigits, readNumber]
  | succ f ih =>
    intro v hv rest
    unfold numberDigits
    by_cases h : v < 128
    · have h256 : v % 256 = v := by omega
      simp [h, readNumber, BitVec.toNat_ofNat, h256]
    · have h1 : (128 + v % 128) % 256 = 128 + v % 128 := by omega
      have h2 : ¬ 128 + v % 128 < 128 := by omega
      have h3 : ¬ v / 128 = 0 := by omega
      simp [h, readNumber, BitVec.toNat_ofNat, h1, ih (v / 128) (by omega) rest]
      omega

theorem readNumber_writeNumber (v : Nat) (rest : List Byte) : readNumber (writeNumber v ++ rest) = .ok (v, rest) :=
  readNumber_numberDigits v v le_rfl rest

theorem readNumberThen_writeNumber {α : Type} (v : Nat) (rest : List Byte)
    (use : Nat → List Byte → Except Reject α) : readNumberThen (writeNumber v ++ rest) use = use v rest := by
  simp [readNumberThen, readNumber_writeNumber]

theorem readPortThen_writeNumber {α : Type} {n : Nat} (v : BitVec n) (rest : List Byte)
    (use : BitVec n → List Byte → Except Reject α) :
    readPortThen n (writeNumber v.toNat ++ rest) use = use v rest := by
  simp [readPortThen, readNumberThen_writeNumber, v.isLt]

theorem readMany_writeMany (vs : List Nat) (rest : List Byte) :
    readMany vs.length (writeMany vs ++ rest) = .ok (vs, rest) := by
  induction vs with
  | nil => simp [readMany, writeMany]
  | cons v vs ih =>
    have : writeMany (v :: vs) ++ rest = writeNumber v ++ (writeMany vs ++ rest) := by simp [writeMany]
    rw [List.length_cons, readMany, this, readNumber_writeNumber]
    simp [ih]

/-- The exchange of 0 and 1 undoes itself. -/
theorem oneFirst_oneFirst (v : Nat) : oneFirst (oneFirst v) = v := by
  by_cases h0 : v = 0
  · simp [oneFirst, h0]
  · by_cases h1 : v = 1
    · simp [oneFirst, h1]
    · simp [oneFirst, h0, h1]

theorem readInstanceThen_writeInstance {α : Type} (w : Nat) (p : Descriptor) (rest : List Byte)
    (use : Nat → Descriptor → List Byte → Except Reject α) :
    readInstanceThen (writeInstance w p ++ rest) use = use w p rest := by
  simp [readInstanceThen, writeInstance, List.append_assoc, readNumberThen_writeNumber, oneFirst_oneFirst,
    readMany_writeMany]

/-! What is left after reading is shorter than what was read. -/

theorem readNumber_length : ∀ {bs : List Byte} {v : Nat} {rest : List Byte}, readNumber bs = .ok (v, rest) →
    rest.length < bs.length := by
  intro bs
  induction bs with
  | nil => intro v rest h; cases h
  | cons b bs ih =>
    intro v rest h
    unfold readNumber at h
    split_ifs at h
    · cases h
      simp
    · split at h
      · cases h
      · split_ifs at h
        cases h
        have := ih ‹_›
        simp only [List.length_cons]
        omega

theorem readMany_length : ∀ {n : Nat} {bs : List Byte} {vs : List Nat} {rest : List Byte},
    readMany n bs = .ok (vs, rest) → rest.length ≤ bs.length := by
  intro n
  induction n with
  | zero => intro bs vs rest h; cases h; exact le_rfl
  | succ n ih =>
    intro bs vs rest h
    unfold readMany at h
    split at h
    · cases h
    · split at h
      · cases h
      · cases h
        have h1 := readNumber_length ‹_›
        have h2 := ih ‹_›
        omega

theorem readNumberThen_length {α : Type} {bs rest : List Byte} {x : α}
    {use : Nat → List Byte → Except Reject (α × List Byte)}
    (hu : ∀ v r, use v r = .ok (x, rest) → rest.length ≤ r.length) (h : readNumberThen bs use = .ok (x, rest)) :
    rest.length ≤ bs.length := by
  unfold readNumberThen at h
  split at h
  · cases h
  · have h1 := readNumber_length ‹_›
    have h2 := hu _ _ h
    omega

theorem readPortThen_length {α : Type} {n : Nat} {bs rest : List Byte} {x : α}
    {use : BitVec n → List Byte → Except Reject (α × List Byte)}
    (hu : ∀ v r, use v r = .ok (x, rest) → rest.length ≤ r.length) (h : readPortThen n bs use = .ok (x, rest)) :
    rest.length ≤ bs.length := by
  refine readNumberThen_length (fun v r hv => ?_) h
  split_ifs at hv
  exact hu _ _ hv

theorem readInstanceThen_length {α : Type} {bs rest : List Byte} {x : α}
    {use : Nat → Descriptor → List Byte → Except Reject (α × List Byte)}
    (hu : ∀ w p r, use w p r = .ok (x, rest) → rest.length ≤ r.length)
    (h : readInstanceThen bs use = .ok (x, rest)) : rest.length ≤ bs.length := by
  refine readNumberThen_length (fun w r hw => readNumberThen_length (fun n r' hn => ?_) hw) h
  split at hn
  · cases hn
  · have h1 := readMany_length ‹_›
    have h2 := hu _ _ _ hn
    omega

/-- An operation takes at least one byte. -/
theorem decodeInstr_length {bs rest : List Byte} {i : Instr} (h : decodeInstr bs = .ok (i, rest)) :
    rest.length < bs.length := by
  have done : ∀ {j : Instr} {r : List Byte}, Except.ok (j, r) = (Except.ok (i, rest) : Except Reject _) →
      rest.length ≤ r.length := by
    intro j r h
    cases h
    exact le_rfl
  cases bs with
  | nil => cases h
  | cons b bs =>
    have : rest.length ≤ bs.length := by
      simp only [decodeInstr] at h
      unfold readOperands at h
      split at h
      · exact readInstanceThen_length (fun _ _ _ h => readNumberThen_length (fun _ _ h => done h) h) h
      · exact readInstanceThen_length
          (fun _ _ _ h => readNumberThen_length (fun _ _ h => readNumberThen_length (fun _ _ h => done h) h) h) h
      · exact readPortThen_length (fun _ _ h => readPortThen_length (fun _ _ h => done h) h) h
      · exact readPortThen_length (fun _ _ h => done h) h
      · exact readPortThen_length (fun _ _ h => readPortThen_length (fun _ _ h => done h) h) h
      · exact readPortThen_length (fun _ _ h => done h) h
      · exact readNumberThen_length (fun _ _ h => done h) h
      · exact done h
    simp only [List.length_cons]
    omega

end Sys2Proof
end

