-- ==== Sys2Proof/Laws/PerInstr.lean ====
section
/-! SUPPORT. A statement about every operation as syntax, one lemma per constructor: its request begins with a byte whose
low three bits are its select code and whose other bits are 0 (Table E5 of spec/30_encoding.md R58; log entry 1). -/

namespace Sys2Proof.Laws.RequestBeginsWithSelect

/-- The first byte of the request of an operation is its select code, below 8. -/
def Statement (i : Instr) : Prop :=
  ∃ b rest, encodeInstr i = b :: rest ∧ b.toNat = i.select ∧ selectCode b = i.select ∧ i.select < 8

theorem decode (w : Nat) (p : Descriptor) (src : Nat) : Statement (.decode w p src) := ⟨0, _, rfl, rfl, rfl, (by decide : 0 < 8)⟩
theorem encode (w : Nat) (p : Descriptor) (dst val : Nat) : Statement (.encode w p dst val) :=
  ⟨1, _, rfl, rfl, rfl, (by decide : 1 < 8)⟩
theorem framebit (byte : Byte) (pos : BitVec 4) : Statement (.framebit byte pos) := ⟨2, _, rfl, rfl, rfl, (by decide : 2 < 8)⟩
theorem timedigits (i : BitVec 10) : Statement (.timedigits i) := ⟨3, _, rfl, rfl, rfl, (by decide : 3 < 8)⟩
theorem bcdpack (tens units : BitVec 4) : Statement (.bcdpack tens units) := ⟨4, _, rfl, rfl, rfl, (by decide : 4 < 8)⟩
theorem nextcount (c : BitVec 10) : Statement (.nextcount c) := ⟨5, _, rfl, rfl, rfl, (by decide : 5 < 8)⟩
theorem romword (a : Nat) : Statement (.romword a) := ⟨6, _, rfl, rfl, rfl, (by decide : 6 < 8)⟩
theorem reserved : Statement .reserved := ⟨7, _, rfl, rfl, rfl, (by decide : 7 < 8)⟩

end Sys2Proof.Laws.RequestBeginsWithSelect
end

