-- ==== Sys2Proof/Laws/Step.lean ====
section
/-! SUPPORT. What an operation and a step can do: one inversion lemma each, which the proofs about runs cite instead of
unfolding the step. -/

namespace Sys2Proof.Machine

/-- This clock's operations are those of its configuration. -/
theorem exec_eq_execUnder : exec = execUnder clock := by
  funext i s
  cases i <;> rfl

theorem step_eq_stepUnder : step = stepUnder clock (execUnder clock) := by
  funext s
  rw [step, exec_eq_execUnder]

/-! The operations presented: their static defects come first, one after another. -/

theorem firstPresentedDefect_fuel : ∀ {n m : Nat} {bs : List Byte}, bs.length ≤ n → bs.length ≤ m →
    firstPresentedDefect n bs = firstPresentedDefect m bs := by
  have none : ∀ m, firstPresentedDefect m [] = none := by
    intro m
    cases m <;> rfl
  intro n
  induction n with
  | zero =>
    intro m bs hn _
    obtain rfl : bs = [] := List.length_eq_zero_iff.1 (by omega)
    rw [none, none]
  | succ n ih =>
    intro m bs hn hm
    cases m with
    | zero =>
      obtain rfl : bs = [] := List.length_eq_zero_iff.1 (by omega)
      rw [none, none]
    | succ m =>
      unfold firstPresentedDefect
      cases hd : decodeInstr bs with
      | error e => rfl
      | ok r =>
        have := decodeInstr_length (i := r.1) (rest := r.2) hd
        simp only [ih (m := m) (bs := r.2) (by omega) (by omega)]

theorem presentedDefect_of_ok {bs rest : List Byte} {i : Instr} (h : decodeInstr bs = .ok (i, rest)) :
    presentedDefect bs = (operationDefect i).or (presentedDefect rest) := by
  have hl := decodeInstr_length h
  obtain ⟨n, hn⟩ : ∃ n, bs.length = n + 1 := ⟨bs.length - 1, by omega⟩
  rw [presentedDefect, hn, firstPresentedDefect, h, presentedDefect]
  simp only [firstPresentedDefect_fuel (n := n) (m := rest.length) (bs := rest) (by omega) le_rfl]

theorem presentedDefect_of_error {bs : List Byte} {e : Reject} (h : decodeInstr bs = .error e) :
    presentedDefect bs = none := by
  unfold presentedDefect
  cases bs <;> simp [firstPresentedDefect, h]

/-- A static defect is an ArgumentError of the codec (spec/60_exceptions.md R103 (b)). -/
theorem operationDefect_eq {i : Instr} {f : Fault} (h : operationDefect i = some f) :
    ∃ op w p, descriptorWf w p = false ∧ f = .argumentError op (.descriptor w p) := by
  have key : ∀ {op w p}, instanceDefect op w p = some f →
      ∃ op w p, descriptorWf w p = false ∧ f = .argumentError op (.descriptor w p) := by
    intro op w p h
    unfold instanceDefect at h
    split_ifs at h with hw
    injection h with h
    exact ⟨op, w, p, by simpa using hw, h.symm⟩
  cases i with
  | decode w p src => exact key h
  | encode w p dst val => exact key h
  | framebit byte pos => cases h
  | timedigits m => cases h
  | bcdpack tens units => cases h
  | nextcount c => cases h
  | romword a => cases h
  | reserved => cases h

theorem firstPresentedDefect_eq : ∀ {n : Nat} {bs : List Byte} {f : Fault}, firstPresentedDefect n bs = some f →
    ∃ op w p, descriptorWf w p = false ∧ f = .argumentError op (.descriptor w p) := by
  intro n
  induction n with
  | zero => intro bs f h; cases h
  | succ n ih =>
    intro bs f h
    unfold firstPresentedDefect at h
    split at h
    · cases h
    · rcases Option.or_eq_some_iff.1 h with h | ⟨-, h⟩
      · exact operationDefect_eq h
      · exact ih h

/-- An operation with a static defect is refused with it, whatever else it holds. -/
theorem execUnder_of_defect {cfg : Config} {i : Instr} {f : Fault} (h : operationDefect i = some f) (s : State) :
    execUnder cfg i s = .fault f := by
  cases i <;> simp only [operationDefect, reduceCtorEq] at h
  · simp only [execUnder, execDecode, withInstance, h, raise]
  · simp only [execUnder, execEncode, withInstance, h, raise]

/-- An evaluation whose presented instances are all well-formed runs the operation read. -/
theorem evaluateStep_of_ok {s : State} {i : Instr} {rest : List Byte} (h : decodeInstr s.inputs = .ok (i, rest))
    (hi : operationDefect i = none) (hr : presentedDefect rest = none) (run : Instr → State → Answer) :
    evaluateStep run s = run i { s with inputs := rest } := by
  simp only [evaluateStep, presentedDefect_of_ok h, hi, hr, Option.or, h]

/-- A next state of DECODE or ENCODE passed both checks. -/
theorem withInstance_next {op : Operation} {w : Nat} {p : Descriptor} {e : Answer} {t : State}
    (h : withInstance op w p e = .next t) : descriptorWf w p = true ∧ e = .next t := by
  cases hw : descriptorWf w p with
  | true => exact ⟨rfl, by rwa [withInstance_of_wf hw] at h⟩
  | false =>
    rw [withInstance_of_not_wf hw] at h
    cases h

theorem withPort_next {op : Operation} {n v : Nat} {e : Answer} {t : State} (h : withPort op n v e = .next t) :
    v < 2 ^ n ∧ e = .next t := by
  unfold withPort at h
  split_ifs at h with hv
  exact ⟨hv, h⟩

theorem withSink_next {f : Option SinkEvent} {v : SinkEvent} {e : Answer} {t : State} (h : withSink f v e = .next t) :
    f ≠ some v ∧ e = .next t := by
  unfold withSink at h
  split_ifs at h with hv
  · cases h
  · exact ⟨hv, h⟩

/-- Whatever operation answers a next state, it has assigned one result and done nothing else. -/
theorem execUnder_next {cfg : Config} {i : Instr} {s t : State} (h : execUnder cfg i s = .next t) :
    ∃ r, t = s.assign r := by
  cases i with
  | decode w p src =>
    injection (withPort_next (withInstance_next h).2).2 with h
    exact ⟨_, h.symm⟩
  | encode w p dst val =>
    injection (withPort_next (withInstance_next h).2).2 with h
    exact ⟨_, h.symm⟩
  | framebit byte pos =>
    obtain ⟨v, -, hv⟩ := deliver_next h
    exact ⟨v, hv⟩
  | timedigits i =>
    obtain ⟨v, -, hv⟩ := deliver_next h
    exact ⟨v, hv⟩
  | bcdpack tens units =>
    injection h with h
    exact ⟨_, h.symm⟩
  | nextcount c =>
    injection h with h
    exact ⟨_, h.symm⟩
  | romword a =>
    obtain ⟨v, -, hv⟩ := deliver_next (withPort_next h).2
    exact ⟨v, hv⟩
  | reserved => cases h

/-- What a step can do when it answers a next state: evaluate one operation, open the Sink, append one word, or end the
run. -/
theorem stepUnder_next {cfg : Config} (hd : cfg.defect = none) {s t : State}
    (h : stepUnder cfg (execUnder cfg) s = .next t) :
    (s.enumerator = .idle ∧ ∃ i rest r, decodeInstr s.inputs = .ok (i, rest) ∧
      t = { s with inputs := rest, wires := s.wires ++ [r] }) ∨
    (∃ f, s.enumerator = .opening f ∧ t = { s with enumerator := .writing f 0 [] }) ∨
    (∃ f a sink sink' q, s.enumerator = .writing f a sink ∧ a < cfg.wordCount ∧ romWord cfg a = .ok q ∧
      memWrite cfg a cfg.wordBytes (trunc cfg.outputBits q) sink = some sink' ∧
      t = { s with enumerator := .writing f (a + 1) sink' }) ∨
    (∃ f a sink, s.enumerator = .writing f a sink ∧ cfg.wordCount ≤ a ∧
      t = { s with enumerator := .idle, image := sink }) := by
  rw [stepUnder_of_defect_none hd] at h
  split at h
  · obtain ⟨i, rest, hi, he⟩ := evaluateStep_next h
    obtain ⟨r, rfl⟩ := execUnder_next he
    exact .inl ⟨‹_›, i, rest, r, hi, rfl⟩
  · injection (withSink_next h).2 with h
    exact .inr (.inl ⟨_, ‹_›, h.symm⟩)
  · rename_i f a sink he
    obtain ⟨q, hq, -⟩ := romWord_ok hd a
    unfold writeStep at h
    split_ifs at h with ha
    · simp only [appendStep, hq] at h
      have h := (withSink_next h).2
      split at h
      · cases h
      · injection h with h
        exact .inr (.inr (.inl ⟨f, a, sink, _, q, he, ha, hq, ‹_›, h.symm⟩))
    · injection (withSink_next h).2 with h
      exact .inr (.inr (.inr ⟨f, a, sink, he, by omega, h.symm⟩))

/-- One more step at the end of a run. -/
theorem runSteps_succ (f : State → Answer) : ∀ k s t, runSteps f k s = .next t → runSteps f (k + 1) s = f t := by
  intro k
  induction k with
  | zero =>
    intro s t h
    injection h with h
    subst h
    simp only [runSteps]
    cases f s <;> rfl
  | succ k ih =>
    intro s t h
    rw [runSteps] at h ⊢
    cases hs : f s with
    | next s' =>
      rw [hs] at h
      exact ih s' t h
    | fault r =>
      rw [hs] at h
      cases h
    | refused r =>
      rw [hs] at h
      cases h

/-- The Sink's append of the next word, when the Sink holds the words before it (spec/20_memory.md R41). -/
theorem memWrite_imageCells {cfg : Config} (hd : cfg.defect = none) {a q : Nat} (ha : a < cfg.wordCount)
    (hq : romWord cfg a = .ok q) :
    memWrite cfg a cfg.wordBytes (trunc cfg.outputBits q) (imageCells cfg a) = some (imageCells cfg (a + 1)) := by
  have hl := romBytes_length hd a (by omega)
  have hc : (imageCells cfg a).length = a * cfg.wordBytes := by simp [imageCells, hl]
  rw [memWrite, if_pos ⟨hc, rfl, Nat.mod_lt _ (by positivity)⟩, writeBytes_append, imageCells, imageCells, romBytes_succ,
    memRead_of_lt ha hq, cellsFrom_append, hl]
  · simp [emit]
  · intro c hc'
    have := cellsFrom_lt (romBytes cfg a) 0 c hc'
    omega

end Sys2Proof.Machine
end

