-- ==== Sys2Proof/Tests/Slice0.lean ====
section
/-! SUPPORT. Small tests, one step or one evaluation each, and a witness for the hypotheses of every statement. Expected
values are those of spec/95_test_vectors.md (the vector is named) unless a comment says otherwise. -/

namespace Sys2Proof.Tests

open Sys2Proof Sys2Proof.Machine

/-- The wires after an answer, if a state follows. -/
def wiresOf : Answer → Option (List Result)
  | .next s => some s.wires
  | .fault _ => none
  | .refused _ => none

/-- The fault of an answer. -/
def faultOf : Answer → Option Fault
  | .next _ => none
  | .fault f => some f
  | .refused _ => none

/-- The refusal of an answer. -/
def refusalOf : Answer → Option Refusal
  | .next _ => none
  | .fault _ => none
  | .refused r => some r

/-- The state before an operation presented as bytes. -/
def presenting (bytes : List Byte) : State := { State.reset with inputs := bytes }

/-! ## Well-formedness: an ill-formed term for each check (I1, I2, I4, I5 and section 2.7) -/

theorem test_wf_refuses_empty : descriptorWf 8 [] = false := by decide
theorem test_wf_refuses_position_out_of_word : descriptorWf 8 [8] = false := by decide
theorem test_wf_refuses_repeated_position : descriptorWf 8 [7, 2, 7] = false := by decide
theorem test_wf_accepts_nearest : descriptorWf 8 [7] = true ∧ descriptorWf 8 [3, 4] = true := by decide
theorem test_defect_output_bits : ({ clock with outputBits := 12 } : Config).defect = some (.outputBits 12) := by decide
theorem test_defect_input_bits : ({ clock with inputBits := 12 } : Config).defect = some (.inputBits 12) := by decide
theorem test_defect_input_bits_zero : ({ clock with inputBits := 0 } : Config).defect = some (.inputBits 0) := by decide
theorem test_defect_descriptor :
    ({ clock with layout := { clockLayout with hourBit := [8] } } : Config).defect =
      some (.descriptor .hourbit 8 [8]) := by decide
theorem test_defect_length :
    ({ clock with layout := { clockLayout with serial := [0, 1, 2, 3] } } : Config).defect =
      some (.descriptor .serial 13 [0, 1, 2, 3]) := by decide
theorem test_defect_none : clock.defect = none ∧ ({ clock with outputBits := 16 } : Config).defect = none ∧
    ({ clock with inputBits := 14 } : Config).defect = none := by decide
theorem test_instr_wf_refuses :
    (Instr.decode 8 [3, 3] 0).wf clock = false ∧ (Instr.decode 8 [3] 256).wf clock = false ∧
    (Instr.encode 8 [8] 0 1).wf clock = false ∧ (Instr.encode 8 [3] 256 1).wf clock = false ∧
    (Instr.framebit 0 10).wf clock = false ∧ (Instr.timedigits 720).wf clock = false ∧
    (Instr.romword 8192).wf clock = false ∧ Instr.reserved.wf clock = false := by decide

/-! ## Reading requests: select codes from Table E5, operand bytes written out by hand from log entry 1 -/

theorem test_read_decode :
    decodeInstr [0x00, 0x08, 0x04, 7, 3, 2, 0, 0xB4, 0x01] = .ok (.decode 8 [7, 3, 2, 0] 0xB4, []) := by decide
theorem test_read_encode :
    decodeInstr [0x01, 0x08, 0x04, 2, 4, 5, 7, 0x00, 0x0B] = .ok (.encode 8 [2, 4, 5, 7] 0 11, []) := by decide
theorem test_read_framebit : decodeInstr [0x02, 0x41, 0x07] = .ok (.framebit 0x41 7, []) := by decide
theorem test_read_timedigits : decodeInstr [0x03, 0xE0, 0x03] = .ok (.timedigits 480, []) := by decide
theorem test_read_bcdpack : decodeInstr [0x04, 0x05, 0x09] = .ok (.bcdpack 5 9, []) := by decide
theorem test_read_nextcount : decodeInstr [0x05, 0xCF, 0x05] = .ok (.nextcount 719, []) := by decide
theorem test_read_romword : decodeInstr [0x06, 0x9D, 0x0B, 0x55] = .ok (.romword 1437, [0x55]) := by decide
theorem test_read_reserved : decodeInstr [0x07] = .ok (.reserved, []) := by decide
theorem test_read_rejects :
    decodeInstr [] = .error .nothingPresented ∧ decodeInstr [0x06, 0x80] = .error .truncated ∧
    decodeInstr [0x06, 0x81, 0x00] = .error .overlongNumber ∧ decodeInstr [0x02, 0x00, 0x10] = .error .operandTooWide := by
  decide
theorem test_write_encode : encodeInstr (.encode 1 [0] 0 300) = [0x01, 0x00, 0x00, 0x00, 0x00, 0xAC, 0x02] := by decide
theorem test_table_words :
    (List.range 8).map (decodeTableWord 3) =
      [some (.decode 1 [0] 0), some (.encode 1 [0] 0 0), some (.framebit 0 0), some (.timedigits 0),
       some (.bcdpack 0 0), some (.nextcount 0), some (.romword 0), some .reserved] := by decide

/-! ## The operations -/

/-- D2. -/
theorem test_decode_reversed : wiresOf (exec (.decode 8 [7, 3, 2, 0] 0xB4) .reset) = some [.val 5] := by decide
/-- D18. -/
theorem test_decode_two_ends : wiresOf (exec (.decode 16 [0, 15, 1] 0x8001) .reset) = some [.val 3] := by decide
/-- N7: the stale bit stays. -/
theorem test_encode_never_clears : wiresOf (exec (.encode 8 [0, 3] 1 2) .reset) = some [.dstOut 9] := by decide
/-- N9: only val[1:0] is used. -/
theorem test_encode_wide_value : wiresOf (exec (.encode 8 [1, 6] 0 255) .reset) = some [.dstOut 0x42] := by decide
/-- Section 2.3, 0x80 at position 8. -/
theorem test_framebit_last_data_bit : wiresOf (exec (.framebit 0x80 8) .reset) = some [.bit true] := by decide
/-- P5, line 2. -/
theorem test_framebit_fault :
    faultOf (exec (.framebit 0x41 10) .reset) = some (.argumentError .framebit (.position 10)) := by decide
/-- Section 2.4, 540: step 6 fires. -/
theorem test_timedigits_ten : wiresOf (exec (.timedigits 540) .reset) = some [.digits ⟨1, 0, 0, 0⟩] := by decide
/-- Section 2.4, 719. -/
theorem test_timedigits_last : wiresOf (exec (.timedigits 719) .reset) = some [.digits ⟨1, 2, 5, 9⟩] := by decide
/-- Section 2.4. -/
theorem test_bcdpack : wiresOf (exec (.bcdpack 5 9) .reset) = some [.byte 0x59] := by decide
/-- Section 2.5, 719 and 255. -/
theorem test_nextcount_wraps : wiresOf (exec (.nextcount 719) .reset) = some [.count 0] := by decide
theorem test_nextcount_carries : wiresOf (exec (.nextcount 255) .reset) = some [.count 256] := by decide
/-- Section 2.6, 1437. -/
theorem test_romword : wiresOf (exec (.romword 1437) .reset) = some [.word 0x0D] := by decide
/-- Section 2.6, 4090: the high feedback byte. -/
theorem test_romword_feedback_high : wiresOf (exec (.romword 4090) .reset) = some [.word 0x02] := by decide
/-- Variant of section 2.6: OutputBits = 16, DefaultOutput = 0xA5F0, address 9. -/
theorem test_memRead_big_endian :
    memRead { clock with outputBits := 16, defaultOutput := 0xA5F0 } 9 = some [0xA5, 0xFC] := by decide
/-- Section 2.8, addresses 8 to 11. -/
theorem test_image_bytes : (romBytes clock 12).drop 8 = [0x00, 0x0C, 0x01, 0x00] := by decide
theorem test_fault_codes :
    (Fault.configurationError (.inputBits 0)).code = 1 ∧ (Fault.ioError .openSink).code = 2 ∧
      (Fault.argumentError .framebit (.position 10)).code = 3 := by decide
theorem test_fault_operations :
    (Fault.configurationError (.inputBits 0)).operation = none ∧ (Fault.ioError .openSink).operation = some .generate ∧
      (Fault.argumentError .framebit (.position 10)).operation = some .framebit := by decide

/-! ## Steps -/

theorem test_step_romword :
    wiresOf (step (presenting [0x06, 0x9D, 0x0B])) = some [.word 0x0D] := by decide
theorem test_step_reserved : refusalOf (step (State.reset.withFetchWord 3 7)) = some .reservedSelect := by decide
theorem test_step_first_after_reset : wiresOf (step (State.reset.withFetchWord 3 5)) = some [.count 1] := by decide
/-- spec/60_exceptions.md R107: an ill-formed descriptor is found before the frame position in front of it. -/
theorem test_step_static_first :
    faultOf (step (presenting [0x02, 0x41, 0x0A, 0x00, 0x08, 0x00, 0x08, 0x00])) =
      some (.argumentError .decode (.descriptor 8 [8])) := by decide
/-- The same for a program, whose ill-formed line names a wire that does not exist. -/
theorem test_program_static_first :
    faultOf (runProgram [.framebit (.lit 0x41) (.lit 10), .decode 8 [8] (.wire 7 0)] .reset) =
      some (.argumentError .decode (.descriptor 8 [8])) := by decide
/-- spec/20_memory.md R41: a value of more than `OutputBits` bits, another width, another address. -/
theorem test_memWrite_illegal :
    memWrite clock 0 1 256 [] = none ∧ memWrite clock 0 2 0 [] = none ∧ memWrite clock 1 1 0 [] = none ∧
      memWrite clock 0 1 255 [] = some [(0, 0xFF)] := by decide
/-- P6, steps 1 to 2 of the run: opening, then the words of addresses 0 and 1. -/
theorem test_generate_first_words :
    runSteps step 3 (State.reset.startGenerate none) =
      .next { State.reset with enumerator := .writing none 2 [(0, 0x00), (1, 0x09)] } := by rfl
theorem test_generate_append_fails :
    faultOf (runSteps step 2 (State.reset.startGenerate (some (.append 0)))) = some (.ioError (.append 0)) := by decide
/-- P5: the fault of line 2 is the program's outcome. -/
theorem test_program_fault :
    faultOf (runProgram [.framebit (.lit 0x41) (.lit 9), .framebit (.lit 0x41) (.lit 10),
      .encode 8 [3] (.lit 0) (.wire 1 0)] .reset) = some (.argumentError .framebit (.position 10)) := by decide
/-- P1, lines 1 to 4: the address unpacked and packed again. -/
theorem test_program_repack :
    wiresOf (runProgram [.decode 13 [0, 1, 2] (.lit 0x1A55), .decode 13 [3, 4, 5, 6, 7, 8, 9, 10, 11, 12] (.lit 0x1A55),
      .encode 13 [0, 1, 2] (.lit 0) (.wire 0 0),
      .encode 13 [3, 4, 5, 6, 7, 8, 9, 10, 11, 12] (.wire 2 0) (.wire 1 0)] .reset) =
      some [.val 5, .val 842, .dstOut 5, .dstOut 0x1A55] := by decide

/-! ## Witnesses: states and operands that meet the hypotheses of the statements, at boundary values -/

theorem witness_decode_and_encode_hypotheses :
    descriptorWf 8 [7, 3, 2, 0] = true ∧ 0xFF < 2 ^ 8 ∧ 15 < 2 ^ [7, 3, 2, 0].length := by decide
theorem witness_AddressFieldsAreItsSlices : 8191 < 2 ^ 13 := by decide
theorem witness_AddressIsPackedFromItsFields : 7 < 8 ∧ 1023 < 1024 := by decide
theorem witness_IllFormedDescriptorIsArgumentError :
    descriptorWf 1 [0] = true ∧ descriptorWf 1 [1] = false ∧ descriptorWf 1 [] = false ∧
      descriptorWf 1 [0, 0] = false := by decide
theorem witness_OperandsWiderThanTheirPortsAreRefused :
    descriptorWf 8 [7] = true ∧ 2 ^ 8 ≤ 256 ∧ 2 ^ 13 ≤ 8192 := by decide
theorem witness_FramebitLineLevels :
    (0#4).toNat = 0 ∧ (1#4).toNat = 0 + 1 ∧ (8#4).toNat = 7 + 1 ∧ (9#4).toNat = 9 ∧ 10 ≤ (10#4).toNat ∧
      10 ≤ (15#4).toNat := by decide
theorem witness_FramePositionOutsideFaults : 10 ≤ (10#4).toNat ∧ (9#4).toNat ≤ 9 ∧ 10 ≤ 10 := by decide
theorem witness_frame_positions : (0#4).toNat ≤ 9 ∧ (9#4).toNat ≤ 9 := by decide
theorem witness_timedigits_domain : (0#10).toNat ≤ 719 ∧ (599#10).toNat ≤ 719 ∧ (719#10).toNat ≤ 719 := by decide
theorem witness_CounterIsCutIntoTwoBytes : (719#10).toNat ≤ 719 ∧ 2 ≤ 2 := by decide
theorem witness_DisplayedTimeIsContinuous : 718 < 719 ∧ 718 ≠ 239 ∧ 719 < 720 ∧
    digitSteps (minuteOfCycle clock 719) = digitSteps (minuteOfCycle clock 719) := by decide
theorem witness_RomwordIsTotal : clock.wf = true ∧ 8191 < 2 ^ clock.inputBits ∧ 8191 < 2 ^ 13 := by decide
theorem witness_RomwordClosedForm : 8191 < 8192 := by decide
theorem witness_RomwordIsItsExpansion :
    clock.wf = true ∧ clock.layout = clockLayout ∧ 8191 < 2 ^ clock.inputBits ∧ State.reset.wires = [] := by decide
theorem witness_OutputBitsAndTheirDefaults :
    ({ clock with outputBits := 16, defaultOutput := 0xA5F1 } : Config).wf = true ∧
      ({ clock with outputBits := 16, defaultOutput := 0xA5F1 } : Config).layout = clockLayout ∧ 4 ≤ 15 ∧ 15 < 16 := by
  decide
theorem witness_OnlyPositionsBelowEightAreReached :
    8184 < 8192 ∧ 8184 % 8 = 0 ∧ 8191 < 8192 ∧ 8191 % 8 = 6 + 1 := by decide
theorem witness_ExtraAddressBitsAreIgnored :
    ({ clock with inputBits := 14 } : Config).wf = true ∧ ({ clock with inputBits := 14 } : Config).layout = clockLayout ∧
      16383 < 2 ^ 14 ∧ ({ clock with inputBits := 12 } : Config).outputBits = 8 ∧
      ({ clock with inputBits := 12 } : Config).inputBits < 13 := by decide
theorem witness_CountersOutsideTheCycleFeedBackZero : 5760 < 8192 ∧ 720 ≤ 5760 / 8 := by decide
theorem witness_EveryAddressHoldsAWord : clock.wf = true ∧ 0 < 2 ^ clock.inputBits := by decide
theorem witness_ConfigurationErrorCauses :
    (({ clock with outputBits := 12 } : Config).outputBits ≠ 8 ∧
      ({ clock with outputBits := 12 } : Config).outputBits ≠ 16) ∧
      ({ clock with inputBits := 12 } : Config).inputBits < 13 := by decide
/-- Section 6 of spec/60_exceptions.md: an operation of each kind, the faulting one among them. -/
theorem witness_OnlyFramebitFaultsInThePrimaryBlock :
    primaryOperation (.decode 13 [3, 4, 5, 6, 7, 8, 9, 10, 11, 12] 8191) ∧ primaryOperation (.encode 8 [3] 255 1) ∧
      primaryOperation (.framebit 0x41 10) :=
  ⟨by show (_, _) ∈ clockInstances; decide, by show (_, _) ∈ clockInstances; decide, trivial⟩
/-- The index of a wire counts from the start of the wires (log entry 21). -/
theorem test_wire_index_counts_older_wires :
    wiresOf (runProgram [.bcdpack (.lit 1) (.lit 2), .nextcount (.wire 0 0)] { State.reset with wires := [.count 5] }) =
      some [.count 5, .byte 0x12, .count 6] := by decide
theorem witness_IllFormedLayoutIsArgumentError :
    ([{ clockLayout with serial := [] }, { clockLayout with count := [13] }, { clockLayout with feedbackLow := [8] },
      { clockLayout with feedbackHigh := [1, 1] }, { clockLayout with minuteBit := [8] },
      { clockLayout with hourBit := [] }] : List Layout).all (fun l =>
        !descriptorWf clock.inputBits l.serial || !descriptorWf clock.inputBits l.count ||
        !descriptorWf clock.outputBits l.feedbackLow || !descriptorWf clock.outputBits l.feedbackHigh ||
        !descriptorWf clock.outputBits l.minuteBit || !descriptorWf clock.outputBits l.hourBit) = true ∧
      clock.outputBits = 8 ∧ 13 ≤ clock.inputBits := by decide
theorem witness_ReservedSelectIsRefused :
    (presenting [0x07]).enumerator = .idle ∧ (presenting [0x07]).inputs = [0x07] ∧ (0x07 : Byte).toNat % 8 = 7 ∧
      presentedDefect [] = none := by decide
theorem witness_StepRunsThePresentedOperation :
    (presenting [0x07]).enumerator = .idle ∧ decodeInstr (presenting [0x07]).inputs = .ok (.reserved, []) ∧
      presentedDefect [] = none ∧ operationDefect .reserved = none ∧
      decodeInstr [0x07, 0x00, 0x08, 0x00, 0x08, 0x00] = .ok (.reserved, [0x00, 0x08, 0x00, 0x08, 0x00]) ∧
      presentedDefect [0x00, 0x08, 0x00, 0x08, 0x00] = some (.argumentError .decode (.descriptor 8 [8])) ∧
      decodeInstr State.reset.inputs = .error .nothingPresented := by decide
theorem witness_InstancesAreBuiltBeforeAnyEvaluation :
    (presenting (encodeInstr (.framebit 0x41 10) ++ (encodeInstr (.encode 8 [8] 0 0) ++ []))).enumerator = .idle ∧
      operationDefect (.framebit 0x41 10) = none ∧
      operationDefect (.encode 8 [8] 0 0) = some (.argumentError .encode (.descriptor 8 [8])) ∧
      lineDefect (.framebit (.lit 0) (.lit 10)) = none ∧
      lineDefect (.decode 8 [] (.lit 0)) = some (.argumentError .decode (.descriptor 8 [])) := by decide
theorem witness_SelectCodeNamesTheOperation :
    decodeInstr [0xFD, 0x05] = .ok (.nextcount 5, []) := by decide
theorem witness_GenerateOpensAtAddressZero : (none : Option SinkEvent) ≠ some .openSink := by decide
theorem witness_EnumeratorAppendsTheNextWord :
    clock.wf = true ∧ 8191 < 2 ^ clock.inputBits ∧ some (SinkEvent.append 0) ≠ some (.append 8191) ∧
    (fun s : State => s.enumerator = .writing (some (.append 0)) 8191 (imageCells clock 8191))
      { State.reset with enumerator := .writing (some (.append 0)) 8191 (imageCells clock 8191) } :=
  ⟨by decide, by decide, by decide, rfl⟩
theorem witness_AppendExtendsTheImage :
    ([] : List Byte).length = 0 * (clock.outputBits / 8) ∧ 1 = clock.outputBits / 8 ∧ 255 < 2 ^ clock.outputBits ∧
      ¬ 256 < 2 ^ clock.outputBits := by decide
/-- The three clauses: opening, append, closing. -/
theorem witness_SinkFailureCauses :
    clock.wf = true ∧ (State.reset.startGenerate (some .openSink)).enumerator = .opening (some .openSink) ∧
    (fun s : State => s.enumerator = .writing (some (.append 8191)) 8191 [] ∧ 8191 < 2 ^ clock.inputBits)
      { State.reset with enumerator := .writing (some (.append 8191)) 8191 [] } ∧
    (fun s : State => s.enumerator = .writing (some .closeSink) 8192 [] ∧ 2 ^ clock.inputBits ≤ 8192)
      { State.reset with enumerator := .writing (some .closeSink) 8192 [] } := by decide
theorem test_sink_fails_at_each_event :
    faultOf (step (State.reset.startGenerate (some .openSink))) = some (.ioError .openSink) ∧
    faultOf (step { State.reset with enumerator := .writing (some (.append 8191)) 8191 [] }) =
      some (.ioError (.append 8191)) ∧
    faultOf (step { State.reset with enumerator := .writing (some .closeSink) 8192 [] }) = some (.ioError .closeSink) := by
  decide
theorem witness_AppendsOutOfOrderAreRefused :
    clock.wf = true ∧ 1 < 2 ^ clock.inputBits ∧ (none : Option SinkEvent) ≠ some (.append 1) ∧
    ({ State.reset with enumerator := .writing none 1 [] } : State).enumerator = .writing none 1 [] ∧
    ([] : Memory).length ≠ 1 * (clock.outputBits / 8) := by decide
theorem witness_runs_of_generate :
    clock.wf = true ∧ 8193 ≤ 2 ^ clock.inputBits + 1 ∧ 8191 < 2 ^ clock.inputBits ∧ 2 ^ clock.inputBits ≤ 8192 := by decide
theorem witness_ImageByteOrder :
    clock.wf = true ∧ clock.outputBits = 8 ∧ ({ clock with outputBits := 16 } : Config).wf = true := by decide
theorem witness_RunsAreNotSuspended :
    (State.reset.startGenerate none).enumerator ≠ .idle ∧
      step (State.reset.startGenerate none) = .next { State.reset with enumerator := .writing none 0 [] } :=
  ⟨by decide, rfl⟩
theorem witness_StepKeepsTheImageInvariant :
    (State.reset.startGenerate none).inv clock ∧
      step (State.reset.startGenerate none) = .next { State.reset with enumerator := .writing none 0 [] } :=
  ⟨⟨trivial, .inl rfl⟩, rfl⟩
theorem witness_StepKeepsMemoriesCanonical :
    (State.reset.startGenerate none).memoriesWf ∧
      stepUnder clock (execUnder clock) (State.reset.startGenerate none) =
        .next { State.reset with enumerator := .writing none 0 [] } :=
  ⟨⟨rfl, trivial⟩, rfl⟩
theorem witness_ProgramsAssignOneResultPerLine :
    runProgram [.bcdpack (.lit 1) (.lit 2)] .reset = .next { State.reset with wires := [.byte 0x12] } := rfl
theorem witness_ProgramsEndAtAFault :
    programDefect ([.bcdpack (.lit 1) (.lit 2)] ++ .framebit (.wire 0 0) (.lit 10) :: []) = none ∧
      runProgram [.bcdpack (.lit 1) (.lit 2)] .reset = .next { State.reset with wires := [.byte 0x12] } ∧
      runLine (.framebit (.wire 0 0) (.lit 10)) { State.reset with wires := [.byte 0x12] } =
        .fault (.argumentError .framebit (.position 10)) := ⟨rfl, rfl, rfl⟩

end Sys2Proof.Tests
end

section
/-! Operations as pure functions of their operands (spec/10_state.md R16): a meaning is state-free when one evaluation,
made without the state, fixes its answer in every state. The shared wrappers build state-free meanings, and so every
operation has one, under any configuration. -/

namespace Sys2Proof.Machine

/-- The answer in state `s` that an evaluation made without `s` fixes: its result is assigned, its fault raised, its
refusal given. -/
def answerOf (e : Except (Fault ⊕ Refusal) Result) (s : State) : Answer :=
  match e with
  | .ok r => .next { s with wires := s.wires ++ [r] }
  | .error (.inl f) => .fault f
  | .error (.inr r) => .refused r

/-- One evaluation, made without the state, fixes the answer in every state. -/
def StateFree (meaning : State → Answer) : Prop := ∃ e, ∀ s, meaning s = answerOf e s

theorem stateFree_assign (r : Result) : StateFree fun s => .next (s.assign r) := ⟨.ok r, fun _ => rfl⟩

theorem stateFree_fault (f : Fault) : StateFree fun _ => .fault f := ⟨.error (.inl f), fun _ => rfl⟩

theorem stateFree_refused (r : Refusal) : StateFree fun _ => .refused r := ⟨.error (.inr r), fun _ => rfl⟩

theorem stateFree_deliver (r : Except Fault Result) : StateFree (deliver r) := by
  cases r with
  | ok v => exact stateFree_assign v
  | error f => exact stateFree_fault f

/-- The check of a port reads the operand only. -/
theorem StateFree.withPort {meaning : State → Answer} (h : StateFree meaning) (op : Operation) (n v : Nat) :
    StateFree fun s => withPort op n v (meaning s) := by
  by_cases hv : v < 2 ^ n
  · simpa only [withPort_of_lt hv] using h
  · simpa only [withPort_of_ge hv] using stateFree_refused (.operandTooWide op)

/-- The check of an instance reads its width and its descriptor only. -/
theorem StateFree.withInstance {meaning : State → Answer} (h : StateFree meaning) (op : Operation) (w : Nat)
    (p : Descriptor) : StateFree fun s => withInstance op w p (meaning s) := by
  cases hp : descriptorWf w p with
  | true => simpa only [withInstance_of_wf hp] using h
  | false => simpa only [withInstance_of_not_wf hp] using stateFree_fault (.argumentError op (.descriptor w p))

/-- Every operation is a pure function of its operands and of the configuration. -/
theorem stateFree_execUnder (cfg : Config) (i : Instr) : StateFree (execUnder cfg i) := by
  cases i with
  | decode w p src => exact ((stateFree_assign (.val (gather p src))).withPort .decode w src).withInstance .decode w p
  | encode w p dst val =>
    exact ((stateFree_assign (.dstOut (scatter p dst val))).withPort .encode w dst).withInstance .encode w p
  | framebit byte pos => exact stateFree_deliver ((frameBit byte pos.toNat).map .bit)
  | timedigits i => exact stateFree_deliver ((timeDigits i.toNat).map .digits)
  | bcdpack tens units => exact stateFree_assign (.byte (packDigits tens units))
  | nextcount c => exact stateFree_assign (.count (nextCount c))
  | romword a => exact (stateFree_deliver ((romWord cfg a).map .word)).withPort .romword cfg.inputBits a
  | reserved => exact stateFree_refused .reservedSelect

/-- Settles O35: the evaluation is chosen, operation by operation, from the state-freeness of its meaning under this
clock's configuration. -/
theorem operationsArePureFunctions : Obligations.OperationsArePureFunctions := by
  choose eval heval using stateFree_execUnder clock
  refine ⟨eval, fun i s => ?_⟩
  rw [exec_eq_execUnder]
  exact heval i s

end Sys2Proof.Machine
end

section
/-! The bytes of the image, offset by offset (spec/20_memory.md R34, R35): byte `j` of the word at address `a` stands at
`a × OutputBits/8 + j`, and is the word's digit to base 256 of that rank, the most significant first. -/

namespace Sys2Proof.Machine

/-- Byte `j` of a word that fits `OutputBits` is a digit of the word to base 256, the most significant first. -/
theorem emit_getElem? {cfg : Config} {q j : Nat} (hq : q < 2 ^ cfg.outputBits) (hj : j < cfg.wordBytes) :
    (emit cfg q)[j]? = some (BitVec.ofNat 8 (q / 256 ^ (cfg.wordBytes - 1 - j))) := by
  have htrunc : trunc cfg.outputBits q = q := Nat.mod_eq_of_lt hq
  simp [emit, htrunc, bigEndian, hj, Nat.shiftRight_eq_div_pow, pow_mul]

/-- The bytes of the word at `a` keep their offsets in every longer piece of the image: the words before it take
`a × OutputBits/8` bytes, and the words after it are appended behind. -/
theorem romBytes_getElem? {cfg : Config} (h : cfg.defect = none) {a q j : Nat} (hq : romWord cfg a = .ok q)
    (hj : j < cfg.wordBytes) : ∀ k, a < k → k ≤ cfg.wordCount →
    (romBytes cfg k)[a * cfg.wordBytes + j]? = (emit cfg q)[j]? := by
  intro k
  induction k with
  | zero => intro ha; omega
  | succ k ih =>
    intro ha hk
    have hlen : (romBytes cfg k).length = k * cfg.wordBytes := romBytes_length h k (by omega)
    rw [romBytes_succ]
    rcases Nat.lt_succ_iff_lt_or_eq.1 ha with hlt | rfl
    · have hword : (a + 1) * cfg.wordBytes ≤ k * cfg.wordBytes := Nat.mul_le_mul_right _ hlt
      rw [Nat.succ_mul] at hword
      rw [List.getElem?_append_left (by omega), ih hlt (by omega)]
    · rw [List.getElem?_append_right (by omega), hlen, Nat.add_sub_cancel_left, memRead_of_lt hk hq, Option.getD_some]

/-- The byte at offset `a × OutputBits/8 + j` of the whole image is byte `j` of the word at `a`. -/
theorem readByte_imageCells {cfg : Config} (h : cfg.defect = none) {a q j : Nat} (ha : a < cfg.wordCount)
    (hq : romWord cfg a = .ok q) (hj : j < cfg.wordBytes) :
    readByte (imageCells cfg cfg.wordCount) (a * cfg.wordBytes + j) = (emit cfg q)[j]? := by
  rw [← romBytes_getElem? h hq hj _ ha le_rfl, imageCells, ← readByte_cellsFrom _ 0, Nat.zero_add]

/-- A byte is cut from the word by its low eight bits, so the last byte of a word is its remainder by 256. -/
theorem byte_ofNat_mod (q : Nat) : BitVec.ofNat 8 (q % 256) = BitVec.ofNat 8 q :=
  BitVec.eq_of_toNat_eq (by simp)

/-- Settles O49: the byte of the image at an offset is a digit of its word, read at the one rank of an 8-bit word and at
the two ranks of a 16-bit word. -/
theorem imageByteOrder : Obligations.ImageByteOrder := by
  intro cfg k hwf hk
  have hd := Config.wf_iff.1 hwf
  obtain ⟨q, hq, hlt⟩ := romWord_ok hd k
  have hbyte : ∀ j, j < cfg.wordBytes → readByte (imageCells cfg cfg.wordCount) (k * cfg.wordBytes + j) =
      some (BitVec.ofNat 8 (q / 256 ^ (cfg.wordBytes - 1 - j))) :=
    fun j hj => (readByte_imageCells hd hk hq hj).trans (emit_getElem? hlt hj)
  refine ⟨q, hq, hlt, fun h8 => ?_, fun h16 => ?_⟩
  · have hw : cfg.wordBytes = 1 := by simp [Config.wordBytes, h8]
    simpa [hw] using hbyte 0
  · have hw : cfg.wordBytes = 2 := by simp [Config.wordBytes, h16]
    rw [hw, Nat.mul_comm k 2] at hbyte
    exact ⟨by simpa using hbyte 0, by simpa [byte_ofNat_mod] using hbyte 1⟩

end Sys2Proof.Machine
end

section
/-! The fields of the two words (spec/30_encoding.md R51, R52, R56): a DECODE that its instance and its port admit answers
the gathered field, an ENCODE of one position ORs one level onto the word, and so each bit of the ROM word is a bit of the
default with the level of its own position, if any, ORed on. -/

namespace Sys2Proof.Machine

/-- DECODE of a well-formed instance and an operand that its port holds (spec/40_codec.md R65, R69). -/
theorem exec_decode_of_wf {w : Nat} {p : Descriptor} {src : Nat} (hp : descriptorWf w p = true) (hsrc : src < 2 ^ w)
    (s : State) :
    exec (.decode w p src) s = .next { s with wires := s.wires ++ [.val (gather p src)] } := by
  calc exec (.decode w p src) s
      = withInstance .decode w p (withPort .decode w src (.next (s.assign (.val (gather p src))))) := rfl
    _ = .next (s.assign (.val (gather p src))) := by rw [withInstance_of_wf hp, withPort_of_lt hsrc]

/-- Settles O8: the address has no bit above the counter field, so the reduction of that field to ten bits changes
nothing. -/
theorem addressFieldsAreItsSlices : Obligations.AddressFieldsAreItsSlices := by
  refine ⟨rfl, rfl, fun a s ha => ⟨?_, ?_⟩⟩
  · have hserial : gather clock.layout.serial a = a % 8 := gather_serial a
    rw [exec_decode_of_wf (by decide) ha, hserial]
  · have hcount : gather clock.layout.count a = a / 8 := (gather_count a).trans (Nat.mod_eq_of_lt (by omega))
    rw [exec_decode_of_wf (by decide) ha, hcount]

/-- Settles O20: the high byte is a quotient by 256 of a number below 1024, so it is below `2 ^ 2`. -/
theorem counterIsCutIntoTwoBytes : Obligations.CounterIsCutIntoTwoBytes := by
  intro n
  have hhigh := feedbackHighByte_toNat n
  refine ⟨feedbackLowByte_toNat n, hhigh, by omega, fun j hj => Nat.testBit_lt_two_pow ?_⟩
  calc (feedbackHighByte n).toNat < 2 ^ 2 := by omega
    _ ≤ 2 ^ j := Nat.pow_le_pow_right (by norm_num) hj

/-- ENCODE of one level at one position ORs it onto that bit and leaves the others (spec/40_codec.md R66). -/
theorem scatter_singleton_testBit (p dst : Nat) (b : Bool) (j : Nat) :
    (scatter [p] dst b.toNat).testBit j = (dst.testBit j || (decide (j = p) && b)) := by
  have hbit : b.toNat.testBit 0 = b := by simpa using testBit_toNat_shiftLeft b 0 0
  by_cases h : j = p
  · subst h
    simpa [hbit] using scatter_testBit_getElem (List.nodup_singleton j) dst b.toNat (k := 0) (by simp)
  · simpa [h] using scatter_testBit_of_not_mem (p := [p]) dst b.toNat (by simpa using h)

/-- Every bit of the packed word under the layout of spec/30_encoding.md R53: the default's, with the four levels ORed on
at positions 0 to 3. -/
theorem packWord_testBit {cfg : Config} (hl : cfg.layout = clockLayout) (lLow lHigh lMin lHour : Bool) {j : Nat}
    (hj : j < cfg.outputBits) :
    (packWord cfg lLow lHigh lMin lHour).testBit j =
      (cfg.defaultOutput.testBit j || (decide (j = 0) && lLow) || (decide (j = 1) && lHigh) ||
        (decide (j = 2) && lMin) || (decide (j = 3) && lHour)) := by
  have hdefault : (trunc cfg.outputBits cfg.defaultOutput).testBit j = cfg.defaultOutput.testBit j := by
    simp [trunc, Nat.testBit_mod_two_pow, hj]
  simp only [packWord, hl, clockLayout, scatter_singleton_testBit, hdefault]

/-- Settles O25: ROMWORD packs the four levels of its frames, and the packed word is read bit by bit. -/
theorem outputBitsAndTheirDefaults : Obligations.OutputBitsAndTheirDefaults := by
  intro cfg a hwf hl
  have hd := Config.wf_iff.1 hwf
  have hserial : gather cfg.layout.serial a = a % 8 := by rw [hl, gather_serial]
  have hcount : gather cfg.layout.count a = a / 8 % 1024 := by rw [hl, gather_count]
  have hpos : a % 8 ≤ 9 := by omega
  obtain ⟨b, hb⟩ := wordBytesOf_ok cfg (a / 8 % 1024)
  have hword := romWord_eq (hcount ▸ hb) (hserial ▸ hpos)
  rw [hserial] at hword
  have hwide : 8 ≤ cfg.outputBits := by
    obtain ⟨hbits, -⟩ := defect_none_iff.1 hd
    omega
  refine ⟨b, _, _, _, _, _, hb, frameBit_of_le _ hpos, frameBit_of_le _ hpos, frameBit_of_le _ hpos,
    frameBit_of_le _ hpos, hword, packWord_lt hd _ _ _ _, ?_, ?_, ?_, ?_, fun j hj hlt => ?_⟩
  · simp [packWord_testBit hl _ _ _ _ (show 0 < cfg.outputBits by omega)]
  · simp [packWord_testBit hl _ _ _ _ (show 1 < cfg.outputBits by omega)]
  · simp [packWord_testBit hl _ _ _ _ (show 2 < cfg.outputBits by omega)]
  · simp [packWord_testBit hl _ _ _ _ (show 3 < cfg.outputBits by omega)]
  · obtain ⟨i, rfl⟩ := Nat.exists_eq_add_of_le' hj
    simp [packWord_testBit hl _ _ _ _ hlt]

end Sys2Proof.Machine
end

section
/-! The two contracts of the codec (spec/40_codec.md R65, R66): an instance and a port that admit the operation answer the
gathered field or the scattered word, and the bit lemmas of `gather` and `scatter` say what those are. -/

namespace Sys2Proof.Machine

/-- ENCODE of a well-formed instance and a destination that its port holds; `val` is unrestricted (spec/40_codec.md R66,
R69, R128). -/
theorem exec_encode_of_wf {w : Nat} {p : Descriptor} {dst : Nat} (hp : descriptorWf w p = true) (hdst : dst < 2 ^ w)
    (val : Nat) (s : State) :
    exec (.encode w p dst val) s = .next { s with wires := s.wires ++ [.dstOut (scatter p dst val)] } := by
  calc exec (.encode w p dst val) s
      = withInstance .encode w p (withPort .encode w dst (.next (s.assign (.dstOut (scatter p dst val))))) := rfl
    _ = .next (s.assign (.dstOut (scatter p dst val))) := by rw [withInstance_of_wf hp, withPort_of_lt hdst]

/-- Settles O1: the value assigned is `gather p src`, whose bits are read off the list. -/
theorem decodeGathersListedBits : Obligations.DecodeGathersListedBits := by
  intro w p src s hp hsrc
  exact ⟨gather p src, exec_decode_of_wf hp hsrc s, gather_lt p src, fun _ hk => gather_testBit_of_lt src hk⟩

/-- Settles O2: the word assigned is `scatter p dst val`. The descriptor's bound on positions keeps it within the word, and
distinctness makes value bit `k` the only one that reaches the `k`-th listed position. -/
theorem encodeOrsIntoListedBits : Obligations.EncodeOrsIntoListedBits := by
  intro w p dst val s hp hdst
  obtain ⟨-, hbound, hnodup⟩ := descriptorWf_iff.1 hp
  exact ⟨scatter p dst val, exec_encode_of_wf hp hdst val s, scatter_lt hbound hdst val,
    fun _ hk => scatter_testBit_getElem hnodup dst val hk, fun _ hj => scatter_testBit_of_not_mem dst val hj⟩

end Sys2Proof.Machine
end

section
/-! The frame of a byte (spec/41_serializer.md): FRAMEBIT delivers what `frameBit` answers, the data bits of the frame are
the binary digits of its byte, and ROMWORD, whose position field has 3 bits, serializes the start bit and data bits 0 to 6
only. -/

namespace Sys2Proof.Machine

/-- FRAMEBIT at a position that the frame has (spec/41_serializer.md R76). -/
theorem exec_framebit_of_ok {byte : Byte} {pos : BitVec 4} {level : Bool} (h : frameBit byte pos.toNat = .ok level)
    (s : State) : exec (.framebit byte pos) s = .next { s with wires := s.wires ++ [.bit level] } := by
  calc exec (.framebit byte pos) s
      = deliver ((frameBit byte pos.toNat).map .bit) s := rfl
    _ = .next (s.assign (.bit level)) := by rw [h, Except.map, deliver_ok]

/-- FRAMEBIT at a position that the frame does not have (spec/41_serializer.md R77). -/
theorem exec_framebit_of_ge (byte : Byte) {pos : BitVec 4} (h : 10 ≤ pos.toNat) (s : State) :
    exec (.framebit byte pos) s = .fault (.argumentError .framebit (.position pos.toNat)) := by
  calc exec (.framebit byte pos) s
      = deliver ((frameBit byte pos.toNat).map .bit) s := rfl
    _ = .fault (.argumentError .framebit (.position pos.toNat)) := by rw [frameBit_error byte h, Except.map, deliver_error]

/-- Settles O12: the position is the start bit's, a data bit's, the stop bit's or none, and `frameBit` has one lemma for
each. -/
theorem framebitLineLevels : Obligations.FramebitLineLevels := by
  intro byte pos s
  refine ⟨fun h => ?_, fun k hk h => ?_, fun h => ?_, fun h => exec_framebit_of_ge byte h s⟩
  · exact exec_framebit_of_ok (h ▸ frameBit_start byte) s
  · exact exec_framebit_of_ok (h ▸ frameBit_data byte hk) s
  · exact exec_framebit_of_ok (h ▸ frameBit_stop byte) s

/-- Settles O13: the `fault` output follows the answer, a fault from position 10 on and a next state up to 9. -/
theorem framePositionOutsideFaults : Obligations.FramePositionOutsideFaults := by
  refine fun byte s => ⟨fun pos h => ?_, fun pos h => ?_, fun pos h => frameBit_error byte h⟩
  · have hfault := exec_framebit_of_ge byte h s
    exact ⟨hfault, by rw [hfault, faultPort]⟩
  · rw [exec_framebit_of_ok (frameBit_of_le byte h), faultPort]

/-- A level of the frame is a bit of the frame's word `512 + 2 × b` (spec/30_encoding.md R54). -/
theorem frameWord_testBit {byte : Byte} {pos : Nat} {level : Bool} (hpos : pos ≤ 9)
    (h : frameBit byte pos = .ok level) : (512 + 2 * byte.toNat).testBit pos = level :=
  Except.ok.inj ((frameBit_of_le byte hpos).symm.trans h)

theorem frameWord_testBit_start (byte : Byte) : (512 + 2 * byte.toNat).testBit 0 = false :=
  frameWord_testBit (by omega) (frameBit_start byte)

theorem frameWord_testBit_data (byte : Byte) {k : Nat} (h : k < 8) :
    (512 + 2 * byte.toNat).testBit (k + 1) = byte.toNat.testBit k :=
  frameWord_testBit (by omega) (frameBit_data byte h)

theorem frameWord_testBit_stop (byte : Byte) : (512 + 2 * byte.toNat).testBit 9 = true :=
  frameWord_testBit (by omega) (frameBit_stop byte)

/-- The low `n` binary digits of a number, each at its own place, add up to its remainder by `2 ^ n`. -/
theorem sum_testBit_shiftLeft (x n : Nat) :
    ((List.range n).map fun j => (x.testBit j).toNat <<< j).sum = x % 2 ^ n := by
  induction n with
  | zero => simp [Nat.mod_one]
  | succ n ih =>
    have hdigit : (x.testBit n).toNat = x / 2 ^ n % 2 := Nat.toNat_testBit x n
    rw [List.range_succ, List.map_append, List.sum_append, ih, pow_succ, Nat.mod_mul]
    simp [hdigit, Nat.shiftLeft_eq, Nat.mul_comm]

/-- Settles O14: the levels are the bits of the frame's word, those at positions 1 to 8 are the digits of the byte, and
eight digits make up the whole byte. -/
theorem frameReassemblesItsByte : Obligations.FrameReassemblesItsByte := by
  intro byte s
  refine ⟨(512 + 2 * byte.toNat).testBit, fun pos hpos => exec_framebit_of_ok (frameBit_of_le byte hpos) s,
    frameWord_testBit_start byte, frameWord_testBit_stop byte, ?_⟩
  have hdata : ∀ j ∈ List.range 8,
      ((512 + 2 * byte.toNat).testBit (j + 1)).toNat <<< j = (byte.toNat.testBit j).toNat <<< j :=
    fun j hj => by rw [frameWord_testBit_data byte (List.mem_range.1 hj)]
  rw [List.map_congr_left hdata, sum_testBit_shiftLeft, Nat.mod_eq_of_lt byte.isLt]

/-! What ROMWORD reaches (R81). -/

/-- ROMWORD of this clock at an address that its port holds (spec/42_rom_word.md R90). -/
theorem exec_romword_of_ok {a q : Nat} (ha : a < 8192) (hq : romWord clock a = .ok q) (s : State) :
    exec (.romword a) s = .next { s with wires := s.wires ++ [.word q] } := by
  have hport : a < 2 ^ clock.inputBits := ha
  calc exec (.romword a) s
      = withPort .romword clock.inputBits a (deliver ((romWord clock a).map .word) s) := rfl
    _ = .next (s.assign (.word q)) := by rw [withPort_of_lt hport, hq, Except.map, deliver_ok]

/-- The four bytes of a counter field (spec/42_rom_word.md R90, steps 2 to 4). -/
theorem wordBytesOf_eq (cfg : Config) (c : Nat) : wordBytesOf cfg c = .ok
    { hour := packDigits (BitVec.ofNat 4 (digitSteps (minuteOfCycle cfg c)).hoursTens)
        (BitVec.ofNat 4 (digitSteps (minuteOfCycle cfg c)).hoursUnits)
      minute := packDigits (BitVec.ofNat 4 (digitSteps (minuteOfCycle cfg c)).minutesTens)
        (BitVec.ofNat 4 (digitSteps (minuteOfCycle cfg c)).minutesUnits)
      feedbackLow := feedbackLowByte (nextCount (BitVec.ofNat 10 c))
      feedbackHigh := feedbackHighByte (nextCount (BitVec.ofNat 10 c)) } := by
  rw [wordBytesOf, timeDigits_of_lt (minuteOfCycle_lt cfg c)]

/-- The displayed hour is 1 to 12: within the second ten of hours the units stay below 3 (spec/42_rom_word.md R85). -/
theorem digitSteps_hours_le {i : Nat} (h : i < 720) :
    16 * (digitSteps i).hoursTens + (digitSteps i).hoursUnits ≤ 0x12 := by
  rw [digitSteps_eq, finishDigits]
  split_ifs <;> simp only <;> omega

/-- The displayed minute is 0 to 59 (spec/42_rom_word.md R85). -/
theorem digitSteps_minutes_le (i : Nat) : (digitSteps i).minutesTens ≤ 5 ∧ (digitSteps i).minutesUnits ≤ 9 := by
  rw [digitSteps_eq, finishDigits]
  split_ifs <;> simp only <;> omega

/-- The packed-digit byte of two digits is at most `16 × tens + units`. -/
theorem packDigits_ofNat_le (tens units : Nat) :
    (packDigits (BitVec.ofNat 4 tens) (BitVec.ofNat 4 units)).toNat ≤ 16 * tens + units := by
  rw [packDigits_toNat, BitVec.toNat_ofNat, BitVec.toNat_ofNat]
  omega

/-- The bytes of a word that never have bit 7 set (spec/41_serializer.md R81). -/
theorem wordBytesOf_bounds {cfg : Config} {c : Nat} {b : WordBytes} (h : wordBytesOf cfg c = .ok b) :
    b.hour.toNat ≤ 0x12 ∧ b.minute.toNat ≤ 0x59 ∧ b.feedbackHigh.toNat ≤ 2 := by
  rw [wordBytesOf_eq] at h
  obtain rfl := Except.ok.inj h
  have hhour := digitSteps_hours_le (minuteOfCycle_lt cfg c)
  obtain ⟨htens, hunits⟩ := digitSteps_minutes_le (minuteOfCycle cfg c)
  refine ⟨(packDigits_ofNat_le _ _).trans hhour, (packDigits_ofNat_le _ _).trans (by omega), ?_⟩
  obtain ⟨-, -, hhigh, -⟩ := counterIsCutIntoTwoBytes (nextCount (BitVec.ofNat 10 c))
  refine hhigh ?_
  rw [nextCount_toNat]
  split_ifs <;> omega

/-- The clock's default word is 0, so the low four bits of its packed word are the four levels. -/
theorem packWord_clock_testBit (lLow lHigh lMin lHour : Bool) :
    (packWord clock lLow lHigh lMin lHour).testBit 0 = lLow ∧ (packWord clock lLow lHigh lMin lHour).testBit 1 = lHigh ∧
      (packWord clock lLow lHigh lMin lHour).testBit 2 = lMin ∧
      (packWord clock lLow lHigh lMin lHour).testBit 3 = lHour := by
  have hdefault : clock.defaultOutput = 0 := rfl
  refine ⟨?_, ?_, ?_, ?_⟩ <;> rw [packWord_testBit rfl _ _ _ _ (by decide)] <;> simp [hdefault]

/-- Settles O26: the word packs the levels of its four frames at a position below 8. At position 0 each of them is the
start bit, and the clock's default word is 0; at position `k + 1` each is data bit `k`. -/
theorem onlyPositionsBelowEightAreReached : Obligations.OnlyPositionsBelowEightAreReached := by
  refine ⟨fun a s ha => ?_, _, wordBytesOf_eq clock 127, by decide⟩
  have hserial : gather clock.layout.serial a = a % 8 := gather_serial a
  have hcount : gather clock.layout.count a = a / 8 := (gather_count a).trans (Nat.mod_eq_of_lt (by omega))
  have hpos : a % 8 < 8 := Nat.mod_lt a (by norm_num)
  obtain ⟨b, hb⟩ := wordBytesOf_ok clock (a / 8)
  have hword := romWord_eq (hcount ▸ hb) (by omega)
  rw [hserial] at hword
  refine ⟨b, _, hb, exec_romword_of_ok ha hword s, fun hstart => ?_, fun k hdata => ?_, wordBytesOf_bounds hb⟩
  · rw [hstart]
    simp only [frameWord_testBit_start]
    rfl
  · have hk : k < 8 := by omega
    rw [hdata]
    simp only [frameWord_testBit_data _ hk]
    exact ⟨by omega, packWord_clock_testBit _ _ _ _⟩

end Sys2Proof.Machine
end

section
/-! The parts of the word one operation at a time (spec/42_rom_word.md sections 1 and 2): TIMEDIGITS on its domain assigns
the digits its loops leave, BCDPACK the byte whose two nibbles are its operands, NEXTCOUNT the count that ROMWORD cuts into
its feedback bytes. -/

namespace Sys2Proof.Machine

/-- TIMEDIGITS on its domain (spec/42_rom_word.md R83, R84). -/
theorem exec_timedigits_of_lt {i : BitVec 10} (h : i.toNat < 720) (s : State) :
    exec (.timedigits i) s = .next { s with wires := s.wires ++ [.digits (digitSteps i.toNat)] } := by
  calc exec (.timedigits i) s
      = deliver ((timeDigits i.toNat).map .digits) s := rfl
    _ = .next (s.assign (.digits (digitSteps i.toNat))) := by rw [timeDigits_of_lt h, Except.map, deliver_ok]

/-- Settles O16: each loop divides what the loop before it left, by 600, by 60 and by 10; how often it runs is the quotient
and what it leaves the remainder. -/
theorem timedigitsFollowsItsSteps : Obligations.TimedigitsFollowsItsSteps := by
  intro i s hi
  refine ⟨i.toNat / 600, i.toNat % 600 / 60, i.toNat % 600 % 60 / 10,
    i.toNat % 600, i.toNat % 600 % 60, i.toNat % 600 % 60 % 10,
    by omega, by omega, by omega, by omega, by omega, by omega, ?_⟩
  rw [exec_timedigits_of_lt (by omega), digitSteps_eq, finishDigits]

/-- BCDPACK is total (spec/42_rom_word.md R86). -/
theorem exec_bcdpack (tens units : BitVec 4) (s : State) :
    exec (.bcdpack tens units) s = .next { s with wires := s.wires ++ [.byte (packDigits tens units)] } := rfl

/-- The two nibbles share no bit, so the OR that the rule writes is the sum (spec/30_encoding.md R55). -/
theorem packDigits_toNat_or (tens units : BitVec 4) :
    (packDigits tens units).toNat = (units.toNat ||| (tens.toNat <<< 4)) := by
  calc (packDigits tens units).toNat
      = 16 * tens.toNat + units.toNat := packDigits_toNat tens units
    _ = tens.toNat <<< 4 + units.toNat := by rw [Nat.shiftLeft_eq, Nat.mul_comm]
    _ = units.toNat ||| tens.toNat <<< 4 := by rw [Nat.shiftLeft_add_eq_or_of_lt units.isLt, Nat.or_comm]

/-- Settles O18: the byte is 16 times the tens digit and the units digit, which is below 16. -/
theorem bcdpackFillsTheNibbles : Obligations.BcdpackFillsTheNibbles := by
  intro tens units s
  have hbyte := packDigits_toNat tens units
  exact ⟨packDigits tens units, exec_bcdpack tens units s, packDigits_toNat_or tens units, by omega, by omega⟩

/-- NEXTCOUNT is total (spec/42_rom_word.md R88). -/
theorem exec_nextcount (c : BitVec 10) (s : State) :
    exec (.nextcount c) s = .next { s with wires := s.wires ++ [.count (nextCount c)] } := rfl

/-- The two feedback bytes hold the whole count (spec/30_encoding.md R56). -/
theorem feedbackBytes_toNat (n : BitVec 10) :
    (feedbackLowByte n).toNat + 256 * (feedbackHighByte n).toNat = n.toNat := by
  rw [feedbackLowByte_toNat, feedbackHighByte_toNat, Nat.mod_add_div]

/-- Settles O19: the feedback bytes of a word are cut from the next count of its counter field, which the phase offset of
the displayed minute does not reach. -/
theorem nextcountIsFedBackUnshifted : Obligations.NextcountIsFedBackUnshifted := by
  intro c s
  refine ⟨nextCount c, exec_nextcount c s, nextCount_toNat c, _, wordBytesOf_eq clock c.toNat, ?_⟩
  have hfield : BitVec.ofNat 10 c.toNat = c := by simp
  rw [hfield, feedbackBytes_toNat]

end Sys2Proof.Machine
end

section
/-! The laws of the codec (spec/40_codec.md section 3): a DECODE after an ENCODE, an ENCODE as an OR, what a DECODE depends
on, two lists joined, and the lists of consecutive positions, which are slices. -/

namespace Sys2Proof.Machine

/-- DECODE after ENCODE of the same instance: the bits of the value that are used, ORed onto the old field. -/
theorem gather_scatter {p : Descriptor} (hp : p.Nodup) (dst val : Nat) :
    gather p (scatter p dst val) = val % 2 ^ p.length ||| gather p dst := by
  apply Nat.eq_of_testBit_eq
  intro k
  rw [Nat.testBit_or, Nat.testBit_mod_two_pow]
  by_cases hk : k < p.length
  · rw [gather_testBit_of_lt _ hk, gather_testBit_of_lt _ hk, scatter_testBit_getElem hp, Bool.or_comm]
    simp [hk]
  · simp [gather_testBit, hk]

/-- Every field of the word 0 is 0. -/
theorem gather_zero (p : Descriptor) : gather p 0 = 0 := by
  apply Nat.eq_of_testBit_eq
  intro k
  rw [gather_testBit, Nat.zero_testBit]
  cases p[k]? <;> simp

/-- ENCODE of a well-formed instance stays within its word (spec/40_codec.md R66). -/
theorem scatter_lt_of_wf {w : Nat} {p : Descriptor} {dst : Nat} (hp : descriptorWf w p = true) (hdst : dst < 2 ^ w)
    (val : Nat) : scatter p dst val < 2 ^ w := by
  obtain ⟨-, hbound, -⟩ := descriptorWf_iff.1 hp
  exact scatter_lt hbound hdst val

/-- Settles O4: DECODE after ENCODE answers the value ORed onto the old field, which is 0 in the word 0. -/
theorem codecRoundTrip : Obligations.CodecRoundTrip := by
  intro w p dst val s t hp hdst hval
  obtain ⟨-, -, hnodup⟩ := descriptorWf_iff.1 hp
  have hreadBack : ∀ d, d < 2 ^ w → exec (.decode w p (scatter p d val)) t =
      .next { t with wires := t.wires ++ [.val (val ||| gather p d)] } := by
    intro d hd
    rw [exec_decode_of_wf hp (scatter_lt_of_wf hp hd val), gather_scatter hnodup, Nat.mod_eq_of_lt hval]
  have hzero : (0 : Nat) < 2 ^ w := Nat.two_pow_pos w
  refine ⟨⟨_, exec_encode_of_wf hp hzero val s, ?_⟩, _, _, exec_encode_of_wf hp hdst val s,
    exec_decode_of_wf hp hdst t, hreadBack dst hdst⟩
  rw [hreadBack 0 hzero, gather_zero, Nat.or_zero]

/-- A field ORed onto a value leaves the value as it is exactly when the value has every bit of the field. -/
theorem or_gather_eq_left_iff {p : Descriptor} {v dst : Nat} :
    v ||| gather p dst = v ↔ ∀ k (hk : k < p.length), dst.testBit p[k] = true → v.testBit k = true := by
  constructor
  · intro h k hk hset
    rw [← h, Nat.testBit_or, gather_testBit_of_lt _ hk, hset, Bool.or_true]
  · intro h
    apply Nat.eq_of_testBit_eq
    intro k
    rw [Nat.testBit_or]
    by_cases hk : k < p.length
    · rw [gather_testBit_of_lt _ hk]
      cases hset : dst.testBit p[k]
      · exact Bool.or_false _
      · rw [h k hk hset, Bool.or_true]
    · simp [gather_testBit, hk]

/-- Settles O3: a bit of the destination stays whether or not it is listed, and the read back is the value with the old
field ORed on. -/
theorem encodeNeverClears : Obligations.EncodeNeverClears := by
  intro w p dst val s hp hdst
  obtain ⟨-, -, hnodup⟩ := descriptorWf_iff.1 hp
  refine ⟨_, exec_encode_of_wf hp hdst val s, fun j hj => (scatter_testBit p dst val j).2 (.inl hj), fun t =>
    ⟨_, exec_decode_of_wf hp (scatter_lt_of_wf hp hdst val) t, ?_⟩⟩
  rw [gather_scatter hnodup, or_gather_eq_left_iff]
  have hlow : ∀ k, k < p.length → (val % 2 ^ p.length).testBit k = val.testBit k := by
    intro k hk
    simp [Nat.testBit_mod_two_pow, hk]
  exact forall₂_congr fun k hk => by rw [hlow k hk]

/-- ENCODE is the OR of the destination and the encoding onto 0. -/
theorem scatter_eq_or (p : Descriptor) (dst val : Nat) : scatter p dst val = dst ||| scatter p 0 val := by
  apply Nat.eq_of_testBit_eq
  intro j
  rw [Bool.eq_iff_iff, Nat.testBit_or, Bool.or_eq_true, scatter_testBit, scatter_testBit, Nat.zero_testBit]
  simp

/-- Encoding 0 sets no bit. -/
theorem scatter_zero (p : Descriptor) (dst : Nat) : scatter p dst 0 = dst := by
  apply Nat.eq_of_testBit_eq
  intro j
  rw [Bool.eq_iff_iff, scatter_testBit]
  simp

/-- Settles O5: with every ENCODE an OR, these are the laws of OR. -/
theorem encodeAlgebra : Obligations.EncodeAlgebra := by
  intro p p' dst val val'
  refine ⟨scatter_eq_or p dst val, ?_, ?_, scatter_zero p dst⟩
  · calc scatter p (scatter p dst val) val
        = dst ||| scatter p 0 val ||| scatter p 0 val := by rw [scatter_eq_or p (scatter p dst val), scatter_eq_or p dst]
      _ = dst ||| scatter p 0 val := by rw [Nat.or_assoc, Nat.or_self]
      _ = scatter p dst val := (scatter_eq_or p dst val).symm
  · calc scatter p' (scatter p dst val) val'
        = dst ||| scatter p 0 val ||| scatter p' 0 val' := by
          rw [scatter_eq_or p' (scatter p dst val), scatter_eq_or p dst]
      _ = dst ||| scatter p' 0 val' ||| scatter p 0 val := Nat.or_right_comm _ _ _
      _ = scatter p (scatter p' dst val') val := by
          rw [scatter_eq_or p (scatter p' dst val'), scatter_eq_or p' dst]

/-- Settles O6: bit `k` of the field is the bit at the `k`-th position, and there are no other bits. -/
theorem decodeDependsOnListedBits : Obligations.DecodeDependsOnListedBits := by
  intro p src src'
  constructor
  · intro h x hx
    obtain ⟨k, hk, rfl⟩ := List.mem_iff_getElem.1 hx
    rw [← gather_testBit_of_lt src hk, h, gather_testBit_of_lt src' hk]
  · intro h
    apply Nat.eq_of_testBit_eq
    intro k
    rw [gather_testBit, gather_testBit]
    by_cases hk : k < p.length
    · simp [hk, h p[k] (List.getElem_mem hk)]
    · simp [hk]

/-- ENCODE uses no bit of the value at or above the length of its list (spec/40_codec.md R128). -/
theorem scatter_mod (p : Descriptor) (dst val : Nat) : scatter p dst (val % 2 ^ p.length) = scatter p dst val := by
  apply Nat.eq_of_testBit_eq
  intro j
  rw [Bool.eq_iff_iff, scatter_testBit, scatter_testBit]
  refine or_congr_right (exists_congr fun i => and_congr_right fun hi => ?_)
  obtain ⟨hlt, -⟩ := List.getElem?_eq_some_iff.1 hi
  simp [Nat.testBit_mod_two_pow, hlt]

/-- DECODE of two lists joined: the field of the second stands above that of the first. -/
theorem gather_append (p p' : Descriptor) (src : Nat) :
    gather (p ++ p') src = gather p src ||| (gather p' src <<< p.length) := by
  apply Nat.eq_of_testBit_eq
  intro k
  rw [Nat.testBit_or, Nat.testBit_shiftLeft, gather_testBit, gather_testBit, gather_testBit, List.getElem?_append]
  by_cases hk : k < p.length
  · simp [hk]
  · simp [hk, Nat.le_of_not_lt hk]

/-- ENCODE of two lists joined: the second takes the bits of the value above those of the first. -/
theorem scatter_append (p p' : Descriptor) (dst val : Nat) :
    scatter (p ++ p') dst val = scatter p' (scatter p dst val) (val >>> p.length) := by
  apply Nat.eq_of_testBit_eq
  intro j
  rw [Bool.eq_iff_iff, scatter_testBit, scatter_testBit, scatter_testBit, or_assoc]
  simp only [Nat.testBit_shiftRight, List.getElem?_append]
  refine or_congr_right ⟨?_, ?_⟩
  · rintro ⟨i, hi, hv⟩
    split_ifs at hi with hlt
    · exact .inl ⟨i, hi, hv⟩
    · exact .inr ⟨i - p.length, hi, by rwa [Nat.add_sub_cancel' (Nat.le_of_not_lt hlt)]⟩
  · rintro (⟨i, hi, hv⟩ | ⟨i, hi, hv⟩)
    · obtain ⟨hlt, -⟩ := List.getElem?_eq_some_iff.1 hi
      exact ⟨i, by rwa [if_pos hlt], hv⟩
    · exact ⟨p.length + i, by rwa [if_neg (by omega), Nat.add_sub_cancel_left], hv⟩

/-- Settles O7. -/
theorem codecComposition : Obligations.CodecComposition := by
  intro p p' src dst val
  exact ⟨gather_append p p' src, by rw [scatter_mod, scatter_append]⟩

/-- DECODE of `n` consecutive positions from `m` on is a slice. -/
theorem gather_range' (m n src : Nat) : gather (List.range' m n) src = src / 2 ^ m % 2 ^ n := by
  apply Nat.eq_of_testBit_eq
  intro k
  rw [gather_testBit, Nat.testBit_mod_two_pow, Nat.testBit_div_two_pow]
  by_cases hk : k < n
  · simp [hk, Nat.add_comm]
  · simp [hk]

/-- ENCODE at `n` consecutive positions from `m` on ORs a shifted value. -/
theorem scatter_range' (m n dst val : Nat) :
    scatter (List.range' m n) dst val = dst ||| ((val % 2 ^ n) <<< m) := by
  apply Nat.eq_of_testBit_eq
  intro j
  rw [Bool.eq_iff_iff, scatter_testBit, Nat.testBit_or, Bool.or_eq_true, Nat.testBit_shiftLeft,
    Nat.testBit_mod_two_pow]
  refine or_congr_right ⟨?_, fun h => ?_⟩
  · rintro ⟨i, hi, hv⟩
    obtain ⟨hlt, rfl⟩ := List.getElem?_eq_some_iff.1 hi
    rw [List.length_range'] at hlt
    simp [hlt, hv]
  · simp only [Bool.and_eq_true, decide_eq_true_eq] at h
    obtain ⟨hle, hlt, hv⟩ := h
    exact ⟨j - m, by simp [hlt, Nat.add_sub_cancel' hle], hv⟩

/-- Settles O9: the two lists are ranges of consecutive positions, and the position fits below the counter field. -/
theorem addressIsPackedFromItsFields : Obligations.AddressIsPackedFromItsFields := by
  intro pos c s t hpos hc
  have hserial : scatter [0, 1, 2] 0 pos = pos := by
    have h := scatter_range' 0 3 0 pos
    rwa [Nat.mod_eq_of_lt (show pos < 2 ^ 3 from hpos), Nat.shiftLeft_zero, Nat.zero_or] at h
  have hcount : scatter [3, 4, 5, 6, 7, 8, 9, 10, 11, 12] pos c = c * 8 + pos := by
    have h := scatter_range' 3 10 pos c
    rwa [Nat.mod_eq_of_lt (show c < 2 ^ 10 from hc), Nat.or_comm,
      ← Nat.shiftLeft_add_eq_or_of_lt (show pos < 2 ^ 3 from hpos), Nat.shiftLeft_eq] at h
  exact ⟨by rw [exec_encode_of_wf (by decide) (by norm_num), hserial],
    by rw [exec_encode_of_wf (by decide) (by omega), hcount]⟩

/-- Distinct positions below `w` are at most `w` many (spec/30_encoding.md R49). -/
theorem length_le_of_descriptorWf {w : Nat} {p : Descriptor} (h : descriptorWf w p = true) : p.length ≤ w := by
  obtain ⟨-, hbound, hnodup⟩ := descriptorWf_iff.1 h
  have hsub : p ⊆ List.range w := fun x hx => List.mem_range.2 (hbound x hx)
  simpa using (hnodup.subperm hsub).length_le

/-- Settles O10: the instance is checked before the ports. -/
theorem illFormedDescriptorIsArgumentError : Obligations.IllFormedDescriptorIsArgumentError := by
  intro w p
  exact ⟨descriptorWf_iff, length_le_of_descriptorWf, fun h _ _ _ _ =>
    ⟨withInstance_of_not_wf h _, withInstance_of_not_wf h _⟩⟩

/-- Settles O11: the instance is admitted, the operand's port is not wide enough. -/
theorem operandsWiderThanTheirPortsAreRefused : Obligations.OperandsWiderThanTheirPortsAreRefused := by
  intro w p v val a s hp hv ha
  have hport : ¬ a < 2 ^ clock.inputBits := Nat.not_lt.2 ha
  exact ⟨(withInstance_of_wf hp _).trans (withPort_of_ge hv.not_gt _),
    (withInstance_of_wf hp _).trans (withPort_of_ge hv.not_gt _), withPort_of_ge hport _⟩

end Sys2Proof.Machine
end

section
/-! The requests (spec/30_encoding.md section 7): what is written is read again, and what is read is named by its select
code. -/

namespace Sys2Proof

/-- The byte that an encoder writes first holds the select code. -/
theorem selectCode_ofNat_select (i : Instr) : selectCode (BitVec.ofNat 8 i.select) = i.select := by
  cases i <;> rfl

/-- The operands are read back under the select code of their operation, whatever follows. -/
theorem readOperands_writeOperands (i : Instr) (rest : List Byte) :
    readOperands i.select (writeOperands i ++ rest) = .ok (i, rest) := by
  cases i with
  | decode w p src =>
    simp only [Instr.select, readOperands, writeOperands, List.append_assoc, readInstanceThen_writeInstance,
      readNumberThen_writeNumber]
  | encode w p dst val =>
    simp only [Instr.select, readOperands, writeOperands, List.append_assoc, readInstanceThen_writeInstance,
      readNumberThen_writeNumber]
  | framebit byte pos =>
    simp only [Instr.select, readOperands, writeOperands, List.append_assoc, readPortThen_writeNumber]
  | timedigits i => simp only [Instr.select, readOperands, writeOperands, readPortThen_writeNumber]
  | bcdpack tens units =>
    simp only [Instr.select, readOperands, writeOperands, List.append_assoc, readPortThen_writeNumber]
  | nextcount c => simp only [Instr.select, readOperands, writeOperands, readPortThen_writeNumber]
  | romword a => simp only [Instr.select, readOperands, writeOperands, readNumberThen_writeNumber]
  | reserved => rfl

/-- Settles O39: the first byte gives the select code back, and the operands are read under it. -/
theorem requestsRoundTrip : Obligations.RequestsRoundTrip := by
  intro i rest
  rw [encodeInstr, List.cons_append, decodeInstr, selectCode_ofNat_select, readOperands_writeOperands]

/-- Settles O41: the bytes are those of the requests written. -/
theorem writtenRequestsAreRead : Obligations.WrittenRequestsAreRead := by
  have hread : ∀ {i : Instr} {bytes : List Byte}, encodeInstr i = bytes → decodeInstr bytes = .ok (i, []) := by
    rintro i _ rfl
    simpa using requestsRoundTrip i []
  exact ⟨hread (by decide), hread (by decide), hread (by decide), hread (by decide), hread (by decide),
    hread (by decide), hread (by decide), hread (by decide)⟩

/-! What a reader answers is what its continuation answers on the numbers read. -/

theorem readNumberThen_ok {α : Type} {bs : List Byte} {use : Nat → List Byte → Except Reject α} {x : α}
    (h : readNumberThen bs use = .ok x) : ∃ v rest, use v rest = .ok x := by
  unfold readNumberThen at h
  split at h
  · cases h
  · exact ⟨_, _, h⟩

theorem readPortThen_ok {α : Type} {n : Nat} {bs : List Byte} {use : BitVec n → List Byte → Except Reject α} {x : α}
    (h : readPortThen n bs use = .ok x) : ∃ v rest, use v rest = .ok x := by
  obtain ⟨v, rest, hv⟩ := readNumberThen_ok h
  split_ifs at hv
  exact ⟨_, _, hv⟩

theorem readInstanceThen_ok {α : Type} {bs : List Byte} {use : Nat → Descriptor → List Byte → Except Reject α} {x : α}
    (h : readInstanceThen bs use = .ok x) : ∃ w p rest, use w p rest = .ok x := by
  obtain ⟨w, _, hw⟩ := readNumberThen_ok h
  obtain ⟨n, _, hn⟩ := readNumberThen_ok hw
  split at hn
  · cases hn
  · exact ⟨_, _, _, hn⟩

/-- Operands read under a select code are those of an operation with that code (Table E5). -/
theorem select_of_readOperands {op : Nat} (hop : op < 8) {bs rest : List Byte} {i : Instr}
    (h : readOperands op bs = .ok (i, rest)) : i.select = op := by
  unfold readOperands at h
  split at h
  · obtain ⟨_, _, _, h⟩ := readInstanceThen_ok h
    obtain ⟨_, _, h⟩ := readNumberThen_ok h
    cases h
    rfl
  · obtain ⟨_, _, _, h⟩ := readInstanceThen_ok h
    obtain ⟨_, _, h⟩ := readNumberThen_ok h
    obtain ⟨_, _, h⟩ := readNumberThen_ok h
    cases h
    rfl
  · obtain ⟨_, _, h⟩ := readPortThen_ok h
    obtain ⟨_, _, h⟩ := readPortThen_ok h
    cases h
    rfl
  · obtain ⟨_, _, h⟩ := readPortThen_ok h
    cases h
    rfl
  · obtain ⟨_, _, h⟩ := readPortThen_ok h
    obtain ⟨_, _, h⟩ := readPortThen_ok h
    cases h
    rfl
  · obtain ⟨_, _, h⟩ := readPortThen_ok h
    cases h
    rfl
  · obtain ⟨_, _, h⟩ := readNumberThen_ok h
    cases h
    rfl
  · cases h
    simp only [imp_false] at *
    show 7 = op
    omega

/-- Settles O40: three bits are below 8, so they are the code of one of the rows of Table E5. -/
theorem selectCodeNamesTheOperation : Obligations.SelectCodeNamesTheOperation :=
  fun _ _ _ _ h => select_of_readOperands (Nat.mod_lt _ (by norm_num)) h

end Sys2Proof
end

section
/-! Presenting an operation: what a step between runs does with the inputs, and that the first static defect presented is
its answer (spec/60_exceptions.md R107, spec/70_reset_and_hazards.md R118). -/

namespace Sys2Proof.Machine

/-- Between two runs of GENERATE a step evaluates what is presented. -/
theorem step_of_idle {s : State} (h : s.enumerator = .idle) : step s = evaluateStep exec s := by
  rw [step, stepUnder_of_defect_none clock_defect, h]

theorem step_of_ok {s : State} {i : Instr} {rest : List Byte} (hs : s.enumerator = .idle)
    (h : decodeInstr s.inputs = .ok (i, rest)) (hrest : presentedDefect rest = none) :
    step s = exec i { s with inputs := rest } := by
  rw [step_of_idle hs]
  cases hi : operationDefect i with
  | none => exact evaluateStep_of_ok h hi hrest exec
  | some f =>
    rw [evaluateStep_of_defect (f := f) (by rw [presentedDefect_of_ok h, hi, Option.some_or]), exec_eq_execUnder,
      execUnder_of_defect hi]

/-- Settles O37: the defects presented are that of the first operation, then those of the operations after it; bytes that
present no operation have none. -/
theorem stepRunsThePresentedOperation : Obligations.StepRunsThePresentedOperation := by
  intro s hs
  refine ⟨fun i rest h hrest => step_of_ok hs h hrest, fun i rest f h hi hrest => ?_, fun e h => ?_⟩
  · rw [step_of_idle hs]
    exact evaluateStep_of_defect (by rw [presentedDefect_of_ok h, hi, hrest, Option.none_or]) exec
  · rw [step_of_idle hs, evaluateStep, presentedDefect_of_error h, h]

/-- Settles O36: nothing is read after the reserved select code. -/
theorem reservedSelectIsRefused : Obligations.ReservedSelectIsRefused := by
  refine ⟨fun _ => rfl, fun s b rest hs hin hb hrest => ?_⟩
  have hread : decodeInstr s.inputs = .ok (.reserved, rest) := by
    rw [hin, decodeInstr, selectCode, hb]
    rfl
  exact step_of_ok hs hread hrest

/-- The static defect of an instance (spec/30_encoding.md R49). -/
theorem instanceDefect_eq_some_iff {op : Operation} {w : Nat} {p : Descriptor} {f : Fault} :
    instanceDefect op w p = some f ↔ descriptorWf w p = false ∧ f = .argumentError op (.descriptor w p) := by
  unfold instanceDefect
  cases descriptorWf w p <;> simp [eq_comm]

/-- Only DECODE and ENCODE have instances. -/
theorem operationDefect_eq_some_iff {i : Instr} {f : Fault} : operationDefect i = some f ↔
    (∃ w p src, i = .decode w p src ∧ descriptorWf w p = false ∧ f = .argumentError .decode (.descriptor w p)) ∨
    ∃ w p dst val, i = .encode w p dst val ∧ descriptorWf w p = false ∧
      f = .argumentError .encode (.descriptor w p) := by
  cases i <;> simp [operationDefect, instanceDefect_eq_some_iff, and_assoc]

/-- Only the lines of DECODE and ENCODE have instances. -/
theorem lineDefect_eq_some_iff {l : Line} {f : Fault} : lineDefect l = some f ↔
    (∃ w p src, l = .decode w p src ∧ descriptorWf w p = false ∧ f = .argumentError .decode (.descriptor w p)) ∨
    ∃ w p dst val, l = .encode w p dst val ∧ descriptorWf w p = false ∧
      f = .argumentError .encode (.descriptor w p) := by
  cases l <;> simp [lineDefect, instanceDefect_eq_some_iff, and_assoc]

/-- The first of the operations presented answers for its own defect, then come those after it. -/
theorem presentedDefect_encodeInstr (i : Instr) (rest : List Byte) :
    presentedDefect (encodeInstr i ++ rest) = (operationDefect i).or (presentedDefect rest) :=
  presentedDefect_of_ok (requestsRoundTrip i rest)

/-- Operations without a static defect are passed over. -/
theorem presentedDefect_flatMap {ops : List Instr} (h : ∀ j ∈ ops, operationDefect j = none) (rest : List Byte) :
    presentedDefect (ops.flatMap encodeInstr ++ rest) = presentedDefect rest := by
  induction ops with
  | nil => rfl
  | cons i ops ih =>
    obtain ⟨hi, hops⟩ := List.forall_mem_cons.1 h
    rw [List.flatMap_cons, List.append_assoc, presentedDefect_encodeInstr, hi, Option.none_or, ih hops]

/-- Lines without a static defect are passed over. -/
theorem programDefect_append {ls : List Line} {l : Line} {f : Fault} (h : ∀ k ∈ ls, lineDefect k = none)
    (hl : lineDefect l = some f) (ls' : List Line) : programDefect (ls ++ l :: ls') = some f := by
  rw [programDefect, List.findSome?_append, List.findSome?_eq_none_iff.2 h, Option.none_or, List.findSome?_cons, hl]

/-- Settles O38: the operations and the lines before the first ill-formed one have no defect of their own. -/
theorem instancesAreBuiltBeforeAnyEvaluation : Obligations.InstancesAreBuiltBeforeAnyEvaluation := by
  refine ⟨fun _ _ => operationDefect_eq_some_iff, fun _ _ => lineDefect_eq_some_iff,
    fun ops i f bytes s hs hin hops hi => ?_, fun ls ls' l f s hls hl => ?_⟩
  · have hdefect : presentedDefect s.inputs = some f := by
      rw [hin, presentedDefect_flatMap hops, presentedDefect_encodeInstr, hi, Option.some_or]
    rw [step_of_idle hs, evaluateStep_of_defect hdefect]
  · rw [runProgram, programDefect_append hls hl]
    rfl

end Sys2Proof.Machine
end

section
/-! The faults (spec/60_exceptions.md): the causes of an ArgumentError in an evaluation, what the startup check answers, and
everything a step can fault with. -/

namespace Sys2Proof.Machine

/-! Each wrapper faults by its own check or by what it wraps. -/

theorem withInstance_fault_iff {op : Operation} {w : Nat} {p : Descriptor} {e : Answer} {f : Fault} :
    withInstance op w p e = .fault f ↔
      (descriptorWf w p = false ∧ f = .argumentError op (.descriptor w p)) ∨ (descriptorWf w p = true ∧ e = .fault f) := by
  cases hw : descriptorWf w p with
  | true => simp [withInstance_of_wf hw]
  | false => simp [withInstance_of_not_wf hw, eq_comm]

theorem withPort_fault_iff {op : Operation} {n v : Nat} {e : Answer} {f : Fault} :
    withPort op n v e = .fault f ↔ v < 2 ^ n ∧ e = .fault f := by
  by_cases hv : v < 2 ^ n
  · simp [withPort_of_lt hv, hv]
  · simp [withPort_of_ge hv, hv]

theorem withSink_fault_iff {failure : Option SinkEvent} {e : SinkEvent} {proceed : Answer} {f : Fault} :
    withSink failure e proceed = .fault f ↔
      (failure = some e ∧ f = .ioError e) ∨ (failure ≠ some e ∧ proceed = .fault f) := by
  by_cases h : failure = some e
  · simp [h, withSink_of_eq, eq_comm]
  · simp [h, withSink_of_ne]

theorem deliver_fault_iff {r : Except Fault Result} {s : State} {f : Fault} :
    deliver r s = .fault f ↔ r = .error f := by
  cases r with
  | ok v => simp [deliver_ok]
  | error g => simp [deliver_error]

theorem map_eq_error_iff {α β : Type} {g : α → β} {r : Except Fault α} {f : Fault} :
    r.map g = .error f ↔ r = .error f := by
  cases r <;> simp [Except.map]

theorem frameBit_eq_error_iff {byte : Byte} {pos : Nat} {f : Fault} :
    frameBit byte pos = .error f ↔ 10 ≤ pos ∧ f = .argumentError .framebit (.position pos) := by
  rcases Nat.lt_or_ge pos 10 with h | h
  · simp [frameBit_of_le byte (Nat.le_of_lt_succ h), h]
  · simp [frameBit_error byte h, h, eq_comm]

theorem timeDigits_eq_error_iff {i : Nat} {f : Fault} :
    timeDigits i = .error f ↔ 720 ≤ i ∧ f = .argumentError .timedigits (.minute i) := by
  rcases Nat.lt_or_ge i 720 with h | h
  · simp [timeDigits_of_lt h, h]
  · simp [timeDigits_of_ge h, h, eq_comm]

/-- The causes of a fault in an evaluation, under every legal configuration (spec/60_exceptions.md R103). -/
theorem execUnder_fault_iff {cfg : Config} (hd : cfg.defect = none) {i : Instr} {s : State} {f : Fault} :
    execUnder cfg i s = .fault f ↔
    (∃ byte pos, i = .framebit byte pos ∧ 10 ≤ pos.toNat ∧ f = .argumentError .framebit (.position pos.toNat)) ∨
    (∃ w p src, i = .decode w p src ∧ descriptorWf w p = false ∧ f = .argumentError .decode (.descriptor w p)) ∨
    (∃ w p dst val, i = .encode w p dst val ∧ descriptorWf w p = false ∧
      f = .argumentError .encode (.descriptor w p)) ∨
    ∃ m, i = .timedigits m ∧ 720 ≤ m.toNat ∧ f = .argumentError .timedigits (.minute m.toNat) := by
  cases i with
  | decode w p src => simp [execUnder, execDecode, withInstance_fault_iff, withPort_fault_iff, and_assoc]
  | encode w p dst val => simp [execUnder, execEncode, withInstance_fault_iff, withPort_fault_iff, and_assoc]
  | framebit byte pos =>
    simp [execUnder, execFramebit, deliver_fault_iff, map_eq_error_iff, frameBit_eq_error_iff]
  | timedigits m => simp [execUnder, execTimedigits, deliver_fault_iff, map_eq_error_iff, timeDigits_eq_error_iff]
  | bcdpack tens units => simp [execUnder, execBcdpack]
  | nextcount c => simp [execUnder, execNextcount]
  | romword a =>
    obtain ⟨q, hq, -⟩ := romWord_ok hd a
    simp [execUnder, evalRomword, withPort_fault_iff, deliver_fault_iff, map_eq_error_iff, hq]
  | reserved => simp [execUnder, execReserved]

/-- Settles O32: this clock's configuration is a legal one. -/
theorem argumentErrorCauses : Obligations.ArgumentErrorCauses := by
  intro i s f
  rw [exec_eq_execUnder]
  exact execUnder_fault_iff clock_defect

/-- Settles O33: of the four causes of a fault only the frame position is left, because this clock's instances are
well-formed and TIMEDIGITS is no primary operation; a decoded position has three bits. -/
theorem onlyFramebitFaultsInThePrimaryBlock : Obligations.OnlyFramebitFaultsInThePrimaryBlock := by
  refine ⟨fun a s f h => ?_, fun i s f hi => ?_, fun byte a => ?_⟩
  · simpa using (argumentErrorCauses (.romword a) s f).1 h
  · have hwf : ∀ c ∈ clockInstances, descriptorWf c.1 c.2 = true := by decide
    refine (argumentErrorCauses i s f).trans ⟨?_, .inl⟩
    rintro (h | ⟨w, p, src, rfl, hw, -⟩ | ⟨w, p, dst, val, rfl, hw, -⟩ | ⟨m, rfl, -⟩)
    · exact h
    · exact absurd (hwf (w, p) hi) (by simp [hw])
    · exact absurd (hwf (w, p) hi) (by simp [hw])
    · exact hi.elim
  · have hpos := gather_serial_lt clock_defect a
    exact ⟨_, frameBit_of_le byte (by omega)⟩

/-! Completion: the contracts of the operations say that a well-formed one completes; that no other one does is read off
the checks it has to pass. -/

/-- What completes has passed its checks (spec/60_exceptions.md section 2). -/
theorem wf_of_exec_next {i : Instr} {s t : State} (h : exec i s = .next t) : i.wf clock = true := by
  have hnofault : ∀ f, exec i s ≠ .fault f := by simp [h]
  cases i with
  | decode w p src =>
    obtain ⟨hp, h⟩ := withInstance_next h
    simp [Instr.wf, hp, (withPort_next h).1]
  | encode w p dst val =>
    obtain ⟨hp, h⟩ := withInstance_next h
    simp [Instr.wf, hp, (withPort_next h).1]
  | framebit byte pos =>
    exact decide_eq_true (Nat.le_of_not_lt fun hpos => hnofault _ (exec_framebit_of_ge byte hpos s))
  | timedigits m =>
    exact decide_eq_true (Nat.le_of_not_lt fun hm =>
      hnofault _ ((argumentErrorCauses _ s _).2 (.inr (.inr (.inr ⟨m, rfl, hm, rfl⟩)))))
  | bcdpack tens units => rfl
  | nextcount c => rfl
  | romword a => exact decide_eq_true (withPort_next h).1
  | reserved => cases h

/-- What passes its checks completes (spec/60_exceptions.md section 6). -/
theorem exec_next_of_wf {i : Instr} (h : i.wf clock = true) (s : State) :
    ∃ r, exec i s = .next { s with wires := s.wires ++ [r] } := by
  cases i with
  | decode w p src =>
    obtain ⟨hp, hsrc⟩ : descriptorWf w p = true ∧ src < 2 ^ w := by simpa [Instr.wf] using h
    exact ⟨_, exec_decode_of_wf hp hsrc s⟩
  | encode w p dst val =>
    obtain ⟨hp, hdst⟩ : descriptorWf w p = true ∧ dst < 2 ^ w := by simpa [Instr.wf] using h
    exact ⟨_, exec_encode_of_wf hp hdst val s⟩
  | framebit byte pos => exact ⟨_, exec_framebit_of_ok (frameBit_of_le byte (of_decide_eq_true h)) s⟩
  | timedigits m =>
    have hm : m.toNat ≤ 719 := of_decide_eq_true h
    exact ⟨_, exec_timedigits_of_lt (Nat.lt_succ_of_le hm) s⟩
  | bcdpack tens units => exact ⟨_, exec_bcdpack tens units s⟩
  | nextcount c => exact ⟨_, exec_nextcount c s⟩
  | romword a =>
    obtain ⟨q, hq, -⟩ := romWord_ok clock_defect a
    exact ⟨_, exec_romword_of_ok (of_decide_eq_true h) hq s⟩
  | reserved => cases h

/-- Settles O34: an operation that fails a check faults or is refused in every state. -/
theorem operationsCompleteExactlyWhenWellFormed : Obligations.OperationsCompleteExactlyWhenWellFormed :=
  fun _ s => ⟨fun h => exec_next_of_wf h s, fun ⟨_, h⟩ => wf_of_exec_next h⟩

/-! The startup check (spec/70_reset_and_hazards.md R118): the constants, then the descriptors of the layout. -/

theorem defect_of_outputBits {cfg : Config} (h : cfg.outputBits ≠ 8 ∧ cfg.outputBits ≠ 16) :
    cfg.defect = some (.outputBits cfg.outputBits) := by
  rw [Config.defect, if_pos h]

theorem defect_of_inputBits {cfg : Config} (h : cfg.outputBits = 8 ∨ cfg.outputBits = 16) (hin : cfg.inputBits < 13) :
    cfg.defect = some (.inputBits cfg.inputBits) := by
  rw [Config.defect, if_neg (by omega), if_pos (show cfg.inputBits < minInputBits from hin)]

theorem defect_of_constants {cfg : Config} (h : cfg.outputBits = 8 ∨ cfg.outputBits = 16) (hin : 13 ≤ cfg.inputBits) :
    cfg.defect = cfg.layout.defect cfg.inputBits cfg.outputBits := by
  rw [Config.defect, if_neg (by omega), if_neg (show ¬ cfg.inputBits < minInputBits from Nat.not_lt.2 hin)]

theorem layoutDefect_eq_some {f : LayoutField} {w n : Nat} {p : Descriptor} {d : BuildDefect}
    (h : layoutDefect f w n p = some d) : d = .descriptor f w p := by
  unfold layoutDefect at h
  split_ifs at h
  exact (Option.some.inj h).symm

/-- A defect of the layout names one of its descriptors. -/
theorem Layout.defect_eq_some {l : Layout} {inputBits outputBits : Nat} {d : BuildDefect}
    (h : l.defect inputBits outputBits = some d) : ∃ f w p, d = .descriptor f w p := by
  simp only [Layout.defect, Option.or_eq_some_iff] at h
  obtain h | ⟨-, h | ⟨-, h | ⟨-, h | ⟨-, h | ⟨-, h⟩⟩⟩⟩⟩ := h <;> exact ⟨_, _, _, layoutDefect_eq_some h⟩

/-- Settles O31: with legal constants the startup check passes on to the layout, and a layout with an ill-formed
descriptor has a defect. -/
theorem illFormedLayoutIsArgumentError : Obligations.IllFormedLayoutIsArgumentError := by
  intro cfg s run hout hin hlayout
  cases hd : cfg.defect with
  | none =>
    obtain ⟨-, -, ⟨h1, -⟩, ⟨h2, -⟩, ⟨h3, -⟩, ⟨h4, -⟩, ⟨h5, -⟩, ⟨h6, -⟩⟩ := defect_none_iff.1 hd
    simp [h1, h2, h3, h4, h5, h6] at hlayout
  | some d =>
    obtain ⟨f, w, p, rfl⟩ := Layout.defect_eq_some ((defect_of_constants hout hin).symm.trans hd)
    exact ⟨_, _, stepUnder_of_defect hd run s⟩

/-- A constant with an illegal value is answered for before anything else (spec/60_exceptions.md R101, R107). -/
theorem stepUnder_of_badConstant {cfg : Config}
    (h : (cfg.outputBits ≠ 8 ∧ cfg.outputBits ≠ 16) ∨ cfg.inputBits < 13) (run : Instr → State → Answer) (s : State) :
    ∃ c, stepUnder cfg run s = .fault (.configurationError c) := by
  by_cases hout : cfg.outputBits ≠ 8 ∧ cfg.outputBits ≠ 16
  · exact ⟨_, stepUnder_of_defect (defect_of_outputBits hout) run s⟩
  · exact ⟨_, stepUnder_of_defect (defect_of_inputBits (by omega) (h.resolve_left hout)) run s⟩

/-! What a step under a legal configuration can fault with. -/

theorem openStep_fault_iff {failure : Option SinkEvent} {s : State} {f : Fault} :
    openStep failure s = .fault f ↔ failure = some .openSink ∧ f = .ioError .openSink := by
  simp [openStep, withSink_fault_iff]

/-- An append faults only by the environment's choice, since every address has its word. -/
theorem appendStep_fault_iff {cfg : Config} (hd : cfg.defect = none) {failure : Option SinkEvent} {a : Nat}
    {sink : Memory} {s : State} {f : Fault} :
    appendStep cfg failure a sink s = .fault f ↔ failure = some (.append a) ∧ f = .ioError (.append a) := by
  obtain ⟨q, hq, -⟩ := romWord_ok hd a
  simp only [appendStep, hq, withSink_fault_iff]
  cases memWrite cfg a cfg.wordBytes (trunc cfg.outputBits q) sink <;> simp

theorem closeStep_fault_iff {failure : Option SinkEvent} {sink : Memory} {s : State} {f : Fault} :
    closeStep failure sink s = .fault f ↔ failure = some .closeSink ∧ f = .ioError .closeSink := by
  simp [closeStep, withSink_fault_iff]

theorem writeStep_fault_iff {cfg : Config} (hd : cfg.defect = none) {failure : Option SinkEvent} {a : Nat}
    {sink : Memory} {s : State} {f : Fault} :
    writeStep cfg failure a sink s = .fault f ↔
      (a < cfg.wordCount ∧ failure = some (.append a) ∧ f = .ioError (.append a)) ∨
      (cfg.wordCount ≤ a ∧ failure = some .closeSink ∧ f = .ioError .closeSink) := by
  rcases Nat.lt_or_ge a cfg.wordCount with ha | ha
  · simp [writeStep, ha, appendStep_fault_iff hd]
  · simp [writeStep, ha, Nat.not_lt.2 ha, closeStep_fault_iff]

/-- An evaluation faults with an ArgumentError only (spec/60_exceptions.md R102, R103). -/
theorem evaluateStep_fault {cfg : Config} (hd : cfg.defect = none) {s : State} {f : Fault}
    (h : evaluateStep (execUnder cfg) s = .fault f) : ∃ op v, f = .argumentError op v := by
  unfold evaluateStep at h
  split at h
  · rename_i g hg
    obtain ⟨op, w, p, -, hf⟩ := firstPresentedDefect_eq hg
    injection h with h
    exact ⟨_, _, h.symm.trans hf⟩
  · split at h
    · cases h
    · rcases (execUnder_fault_iff hd).1 h with ⟨_, _, -, -, rfl⟩ | ⟨_, _, _, -, -, rfl⟩ | ⟨_, _, _, _, -, -, rfl⟩ |
        ⟨_, -, -, rfl⟩ <;> exact ⟨_, _, rfl⟩

/-- Settles O46: the Enumerator's steps fault by the environment's choice, and nothing else gives an IOError. -/
theorem sinkFailureCauses : Obligations.SinkFailureCauses := by
  intro cfg s e hwf
  have hd := Config.wf_iff.1 hwf
  rw [stepUnder_of_defect_none hd]
  cases s.enumerator with
  | idle =>
    have hnever : evaluateStep (execUnder cfg) s ≠ .fault (.ioError e) := by
      intro h
      obtain ⟨_, _, h⟩ := evaluateStep_fault hd h
      cases h
    simp [hnever]
  | opening failure => simp [openStep_fault_iff]
  | writing failure a sink =>
    refine (writeStep_fault_iff hd).trans ⟨?_, ?_⟩
    · rintro (⟨ha, rfl, h⟩ | ⟨ha, rfl, h⟩)
      · exact .inr (.inl ⟨a, sink, rfl, ha, Fault.ioError.inj h⟩)
      · exact .inr (.inr ⟨a, sink, rfl, ha, Fault.ioError.inj h⟩)
    · rintro (⟨⟨⟩, -⟩ | ⟨_, _, ⟨⟩, ha, rfl⟩ | ⟨_, _, ⟨⟩, ha, rfl⟩)
      · exact .inl ⟨ha, rfl, rfl⟩
      · exact .inr ⟨ha, rfl, rfl⟩

/-- Under a legal configuration nothing is a ConfigurationError. -/
theorem stepUnder_ne_configurationError {cfg : Config} (hd : cfg.defect = none) (s : State) (c : BadConstant) :
    stepUnder cfg (execUnder cfg) s ≠ .fault (.configurationError c) := by
  rw [stepUnder_of_defect_none hd]
  cases s.enumerator with
  | idle =>
    intro h
    obtain ⟨_, _, h⟩ := evaluateStep_fault hd h
    cases h
  | opening failure => simp [openStep_fault_iff]
  | writing failure a sink => simp [writeStep_fault_iff hd]

/-- Settles O30: a build whose constants are legal has no defect or one of its layout, and neither is answered with a
ConfigurationError. -/
theorem configurationErrorCauses : Obligations.ConfigurationErrorCauses := by
  refine ⟨fun cfg s => ⟨fun h => stepUnder_of_badConstant h _ s, fun ⟨c, h⟩ => ?_⟩,
    fun cfg s run h => stepUnder_of_badConstant h run s, clock_defect⟩
  by_contra hlegal
  cases hd : cfg.defect with
  | none => exact stepUnder_ne_configurationError hd s c h
  | some d =>
    obtain ⟨f, w, p, rfl⟩ := Layout.defect_eq_some ((defect_of_constants (by omega) (by omega)).symm.trans hd)
    rw [stepUnder_of_defect hd] at h
    cases h

end Sys2Proof.Machine
end

section
/-! GENERATE (spec/42_rom_word.md section 4): one step at a time, then the whole run. -/

namespace Sys2Proof.Machine

/-- A legal word takes `OutputBits/8` bytes, so the words below `k` take this many (spec/20_memory.md R34). -/
theorem imageCells_length {cfg : Config} (hd : cfg.defect = none) {k : Nat} (hk : k ≤ cfg.wordCount) :
    (imageCells cfg k).length = k * cfg.wordBytes := by
  rw [imageCells, cellsFrom_length, romBytes_length hd k hk]

/-- The next word stands right after the words before it (spec/20_memory.md R36). -/
theorem imageCells_succ {cfg : Config} (hd : cfg.defect = none) {a q : Nat} (ha : a < cfg.wordCount)
    (hq : romWord cfg a = .ok q) :
    imageCells cfg (a + 1) = imageCells cfg a ++ cellsFrom (a * cfg.wordBytes) (emit cfg q) := by
  rw [imageCells, imageCells, romBytes_succ, memRead_of_lt ha hq, cellsFrom_append,
    romBytes_length hd a (Nat.le_of_lt ha), Nat.zero_add, Option.getD_some]

/-! The three steps of a run that the environment does not make fail. -/

theorem stepUnder_opening {cfg : Config} (hd : cfg.defect = none) {s : State} {failure : Option SinkEvent}
    (hs : s.enumerator = .opening failure) (hf : failure ≠ some .openSink) (run : Instr → State → Answer) :
    stepUnder cfg run s = .next { s with enumerator := .writing failure 0 (imageCells cfg 0) } := by
  rw [stepUnder_of_defect_none hd, hs]
  exact withSink_of_ne hf _

theorem stepUnder_writing {cfg : Config} (hd : cfg.defect = none) {s : State} {failure : Option SinkEvent} {a : Nat}
    (hs : s.enumerator = .writing failure a (imageCells cfg a)) (ha : a < cfg.wordCount)
    (hf : failure ≠ some (.append a)) (run : Instr → State → Answer) :
    stepUnder cfg run s = .next { s with enumerator := .writing failure (a + 1) (imageCells cfg (a + 1)) } := by
  obtain ⟨q, hq, -⟩ := romWord_ok hd a
  rw [stepUnder_of_defect_none hd, hs]
  simp only [writeStep, if_pos ha, appendStep, hq, withSink_of_ne hf, memWrite_imageCells hd ha hq]

theorem stepUnder_closing {cfg : Config} (hd : cfg.defect = none) {s : State} {failure : Option SinkEvent} {a : Nat}
    {sink : Memory} (hs : s.enumerator = .writing failure a sink) (ha : cfg.wordCount ≤ a)
    (hf : failure ≠ some .closeSink) (run : Instr → State → Answer) :
    stepUnder cfg run s = .next { s with enumerator := .idle, image := sink } := by
  rw [stepUnder_of_defect_none hd, hs]
  simp only [writeStep, if_neg (Nat.not_lt.2 ha), closeStep, withSink_of_ne hf]

/-- Settles O42: the words below address 0 are none. -/
theorem generateOpensAtAddressZero : Obligations.GenerateOpensAtAddressZero :=
  fun s _ hf => stepUnder_opening clock_defect (s.startGenerate_enumerator _) hf exec

/-- Settles O43: the words below the next address are those below this one with its word appended. -/
theorem enumeratorAppendsTheNextWord : Obligations.EnumeratorAppendsTheNextWord := by
  intro cfg s run failure a hwf ha hf hs
  have hd := Config.wf_iff.1 hwf
  obtain ⟨q, hq, -⟩ := romWord_ok hd a
  refine ⟨emit cfg q, memRead_of_lt ha hq, ?_⟩
  rw [stepUnder_writing hd hs ha hf run, imageCells_succ hd ha hq, Config.wordBytes]

/-- Byte `j` of a number of `n` bytes, the most significant first (spec/20_memory.md R35). -/
theorem bigEndian_getElem? {n j : Nat} (v : Nat) (hj : j < n) :
    (bigEndian n v)[j]? = some (BitVec.ofNat 8 (v / 256 ^ (n - 1 - j))) := by
  simp [bigEndian, hj, Nat.shiftRight_eq_div_pow, pow_mul]

/-- Settles O44: every offset of the file lies below the place of the append, which so extends the file. -/
theorem appendExtendsTheImage : Obligations.AppendExtendsTheImage := by
  intro cfg a n v bytes
  refine ⟨fun h => ⟨bigEndian n v, ?_, bigEndian_length n v, fun j hj => bigEndian_getElem? v hj⟩, fun h => ?_⟩
  · have hbelow : ∀ c ∈ cellsFrom 0 bytes, c.1 < a * cfg.wordBytes := by
      have hlen : a * cfg.wordBytes = 0 + bytes.length := by rw [h.1, Config.wordBytes, Nat.zero_add]
      rw [hlen]
      exact cellsFrom_lt bytes 0
    rw [memWrite, if_pos (by rwa [cellsFrom_length]), writeBytes_append _ hbelow, cellsFrom_append, Nat.zero_add, h.1,
      Config.wordBytes]
  · rw [memWrite, if_neg (by rwa [cellsFrom_length])]

/-- Settles O45: the first of the three conditions of an append fails. -/
theorem appendsOutOfOrderAreRefused : Obligations.AppendsOutOfOrderAreRefused := by
  intro cfg s run failure a sink hwf ha hf hs hlen
  have hd := Config.wf_iff.1 hwf
  obtain ⟨q, hq, -⟩ := romWord_ok hd a
  have hword : a < cfg.wordCount := ha
  have hnone : memWrite cfg a cfg.wordBytes (trunc cfg.outputBits q) sink = none := if_neg fun h => hlen h.1
  rw [stepUnder_of_defect_none hd, hs]
  simp only [writeStep, if_pos hword, appendStep, hq, withSink_of_ne hf, hnone]

/-! The whole run. -/

/-- After the opening and `k` appends the Sink holds the words below `k`, unless the environment has made one of these
steps fail; nothing but the Enumerator has changed. -/
theorem runSteps_writing {cfg : Config} (hd : cfg.defect = none) (run : Instr → State → Answer) (s : State)
    {failure : Option SinkEvent} (hopen : failure ≠ some .openSink) {k : Nat} (hk : k ≤ cfg.wordCount)
    (happend : ∀ a, a < k → failure ≠ some (.append a)) :
    runSteps (stepUnder cfg run) (k + 1) (s.startGenerate failure) =
      .next { s with enumerator := .writing failure k (imageCells cfg k) } := by
  induction k with
  | zero => exact (runSteps_succ _ 0 _ _ rfl).trans (stepUnder_opening hd (s.startGenerate_enumerator _) hopen run)
  | succ k ih =>
    have hbefore := ih (Nat.le_of_succ_le hk) fun a ha => happend a (Nat.lt_succ_of_lt ha)
    exact (runSteps_succ _ _ _ _ hbefore).trans (stepUnder_writing hd rfl hk (happend k k.lt_succ_self) run)

/-- Before the end of a run, and before the step that the environment makes fail, nothing but the Enumerator changes. -/
theorem runSteps_unfinished {cfg : Config} (hd : cfg.defect = none) (run : Instr → State → Answer) (s : State)
    {failure : Option SinkEvent} {k : Nat} (hk : k ≤ cfg.wordCount + 1) (hopen : 0 < k → failure ≠ some .openSink)
    (happend : ∀ a, a + 1 < k → failure ≠ some (.append a)) :
    ∃ e, runSteps (stepUnder cfg run) k (s.startGenerate failure) = .next { s with enumerator := e } := by
  cases k with
  | zero => exact ⟨.opening failure, rfl⟩
  | succ k =>
    exact ⟨_, runSteps_writing hd run s (hopen k.succ_pos) (Nat.le_of_succ_le_succ hk) fun a ha =>
      happend a (Nat.succ_lt_succ ha)⟩

/-- A run that no Sink failure meets gives the whole image. -/
theorem runSteps_closed {cfg : Config} (hd : cfg.defect = none) (run : Instr → State → Answer) (s : State)
    {failure : Option SinkEvent} (hopen : failure ≠ some .openSink)
    (happend : ∀ a, a < cfg.wordCount → failure ≠ some (.append a)) (hclose : failure ≠ some .closeSink) :
    runSteps (stepUnder cfg run) (cfg.wordCount + 2) (s.startGenerate failure) =
      .next { s with enumerator := .idle, image := imageCells cfg cfg.wordCount } :=
  (runSteps_succ _ _ _ _ (runSteps_writing hd run s hopen le_rfl happend)).trans
    (stepUnder_closing hd rfl le_rfl hclose run)

/-- A fault is for good: it is the answer of every longer run. -/
theorem runSteps_fault {step : State → Answer} {k m : Nat} {s t : State} {f : Fault} (hs : runSteps step k s = .next t)
    (hf : step t = .fault f) (hm : k + 1 ≤ m) : runSteps step m s = .fault f := by
  induction k generalizing m s with
  | zero =>
    obtain ⟨m, rfl⟩ := Nat.exists_eq_add_of_le' hm
    obtain rfl : s = t := by injection hs
    simp only [runSteps, hf]
  | succ k ih =>
    obtain ⟨m, rfl⟩ := Nat.exists_eq_add_of_le' (Nat.le_of_add_left_le hm)
    rw [runSteps] at hs ⊢
    cases hstep : step s with
    | next s' =>
      rw [hstep] at hs
      exact ih hs (by omega)
    | fault _ =>
      rw [hstep] at hs
      cases hs
    | refused _ =>
      rw [hstep] at hs
      cases hs

/-- Settles O47: the run closes on the whole image, whose bytes are those that a read of the address space gives. -/
theorem generateWritesTheWholeImage : Obligations.GenerateWritesTheWholeImage := by
  refine ⟨fun cfg s hwf => ?_, fun s => ?_⟩
  · have hd := Config.wf_iff.1 hwf
    refine ⟨_, runSteps_closed hd _ s nofun nofun nofun, imageCells_length hd le_rfl, fun k hk => ?_⟩
    obtain ⟨q, hq, -⟩ := romWord_ok hd k
    exact ⟨emit cfg q, memRead_of_lt hk hq, fun j hj => readByte_imageCells hd hk hq hj⟩
  · exact runSteps_closed clock_defect exec s nofun nofun nofun

/-- Settles O48: the Sink event that the environment chose, if the run has it, is met in the step that the opening and
the appends before it lead to. -/
theorem generateIsAllOrNothing : Obligations.GenerateIsAllOrNothing := by
  intro cfg s hwf
  have hd := Config.wf_iff.1 hwf
  rw [show 2 ^ cfg.inputBits = cfg.wordCount from rfl]
  constructor
  · intro failure hfailure
    have happend : ∀ a, a < cfg.wordCount → failure ≠ some (.append a) := by
      rintro a ha rfl
      rcases hfailure with h | ⟨b, hb, h⟩
      · cases h
      · cases h
        exact absurd ha (Nat.not_lt.2 hb)
    have hother : failure ≠ some .openSink ∧ failure ≠ some .closeSink := by
      rcases hfailure with rfl | ⟨b, -, rfl⟩ <;> exact ⟨nofun, nofun⟩
    exact ⟨fun k hk => runSteps_unfinished hd _ s hk (fun _ => hother.1) fun a ha => happend a (by omega),
      runSteps_closed hd _ s hother.1 happend hother.2⟩
  · rintro e (rfl | rfl | ⟨a, ha, rfl⟩)
    · exact ⟨1, by omega, fun j hj => runSteps_unfinished hd _ s (by omega) (by omega) nofun, fun m =>
        runSteps_fault (k := 0) rfl ((sinkFailureCauses cfg _ _ hwf).2 (.inl ⟨rfl, rfl⟩))⟩
    · have hwritten := runSteps_writing hd (execUnder cfg) s (failure := some .closeSink) nofun le_rfl nofun
      exact ⟨_, le_rfl, fun j hj => runSteps_unfinished hd _ s (Nat.le_of_lt_succ hj) nofun nofun, fun m =>
        runSteps_fault hwritten ((sinkFailureCauses cfg _ _ hwf).2 (.inr (.inr ⟨_, _, rfl, le_rfl, rfl⟩)))⟩
    · have hearlier : ∀ b, b < a → some (SinkEvent.append a) ≠ some (.append b) := by
        intro b hb h
        cases h
        exact lt_irrefl _ hb
      have hwritten := runSteps_writing hd (execUnder cfg) s (failure := some (.append a)) nofun (Nat.le_of_lt ha)
        hearlier
      exact ⟨a + 2, by omega, fun j hj => runSteps_unfinished hd _ s (by omega) nofun fun b hb => hearlier b (by omega),
        fun m => runSteps_fault hwritten ((sinkFailureCauses cfg _ _ hwf).2 (.inr (.inl ⟨_, _, rfl, ha, rfl⟩)))⟩

/-! What every step keeps. -/

/-- Settles O51: an append keeps the Sink in order because it was, and a run ends only with the words of all addresses in
the Sink. -/
theorem stepKeepsTheImageInvariant : Obligations.StepKeepsTheImageInvariant := by
  intro s t hinv h
  obtain ⟨horder, himage⟩ := hinv
  rw [step_eq_stepUnder] at h
  rcases stepUnder_next clock_defect h with ⟨hs, _, _, _, -, rfl⟩ | ⟨f, -, rfl⟩ |
    ⟨f, a, sink, sink', q, hs, ha, hq, hsink', rfl⟩ | ⟨f, a, sink, hs, ha, rfl⟩
  · exact ⟨horder, himage⟩
  · exact ⟨⟨Nat.zero_le _, rfl⟩, himage⟩
  · rw [hs] at horder
    obtain ⟨-, rfl⟩ := horder
    have happended := (memWrite_imageCells clock_defect ha hq).symm.trans hsink'
    exact ⟨⟨ha, (Option.some.inj happended).symm⟩, himage⟩
  · rw [hs] at horder
    obtain ⟨hle, rfl⟩ := horder
    exact ⟨trivial, .inr (by rw [le_antisymm hle ha])⟩

/-- Settles O52: at the start there is no run and no image. -/
theorem resetMeetsTheImageInvariant : Obligations.ResetMeetsTheImageInvariant :=
  ⟨⟨trivial, .inl rfl⟩, rfl, trivial⟩

/-- Settles O53: only an append writes to a memory, and the write keeps the form; the image of a run is its Sink. -/
theorem stepKeepsMemoriesCanonical : Obligations.StepKeepsMemoriesCanonical := by
  intro cfg s t hwf h
  obtain ⟨himage, hsink⟩ := hwf
  cases hd : cfg.defect with
  | some d =>
    rw [stepUnder_of_defect hd] at h
    cases h
  | none =>
    rcases stepUnder_next hd h with ⟨hs, _, _, _, -, rfl⟩ | ⟨f, -, rfl⟩ |
      ⟨f, a, sink, sink', q, hs, -, -, hsink', rfl⟩ | ⟨f, a, sink, hs, -, rfl⟩
    · exact ⟨himage, hsink⟩
    · exact ⟨himage, rfl⟩
    · rw [hs] at hsink
      exact ⟨himage, memWrite_wf hsink hsink'⟩
    · rw [hs] at hsink
      exact ⟨hsink, trivial⟩

/-- Settles O50: of what a step can do only the evaluation touches inputs and wires, and it needs an idle Enumerator. -/
theorem runsAreNotSuspended : Obligations.RunsAreNotSuspended := by
  intro s t hs h
  rw [step_eq_stepUnder] at h
  rcases stepUnder_next clock_defect h with ⟨hidle, -⟩ | ⟨f, -, rfl⟩ | ⟨f, a, sink, sink', q, -, -, -, -, rfl⟩ |
    ⟨f, a, sink, -, -, rfl⟩
  · exact absurd hidle hs
  · exact ⟨rfl, rfl⟩
  · exact ⟨rfl, rfl⟩
  · exact ⟨rfl, rfl⟩

end Sys2Proof.Machine
end

section
/-! The closed forms (spec/41_serializer.md section 2, spec/42_rom_word.md sections 1 and 3): the frame as a bit of its
word, the displayed time, and the ROM word of this clock. -/

namespace Sys2Proof.Machine

/-- DECODE of one position is that bit. -/
theorem gather_singleton (p src : Nat) : gather [p] src = (src.testBit p).toNat := by
  apply Nat.eq_of_testBit_eq
  intro k
  have hbit : (src.testBit p).toNat.testBit k = (decide (k = 0) && src.testBit p) := by
    simpa using testBit_toNat_shiftLeft (src.testBit p) 0 k
  rw [hbit, gather_testBit]
  cases k <;> simp

/-- Settles O15: a level of the frame is a bit of its word, and one bit is what a DECODE of one position answers. -/
theorem frameIsDecodedFromItsWord : Obligations.FrameIsDecodedFromItsWord := by
  intro byte pos s t hpos
  have hbound : ∀ x ∈ [pos.toNat], x < 10 := List.forall_mem_singleton.2 (Nat.lt_succ_of_le hpos)
  have hwf := descriptorWf_iff.2 ⟨List.cons_ne_nil _ _, hbound, List.nodup_singleton _⟩
  have hword : 512 + 2 * byte.toNat < 2 ^ 10 := by omega
  exact ⟨_, exec_framebit_of_ok (frameBit_of_le byte hpos) s, rfl, by rw [exec_decode_of_wf hwf hword, gather_singleton]⟩

/-- The displayed hour counts from 1 (spec/42_rom_word.md R85). -/
theorem digitSteps_hour (i : Nat) : 10 * (digitSteps i).hoursTens + (digitSteps i).hoursUnits = i / 60 + 1 := by
  rw [digitSteps_eq, finishDigits]
  split_ifs <;> simp only <;> omega

/-- The displayed minute counts from 0 (spec/42_rom_word.md R85). -/
theorem digitSteps_minute (i : Nat) : 10 * (digitSteps i).minutesTens + (digitSteps i).minutesUnits = i % 60 := by
  rw [digitSteps_eq, finishDigits]
  split_ifs <;> simp only <;> omega

/-- The units of the hour are a decimal digit, because step 6 carries (spec/42_rom_word.md R83). -/
theorem digitSteps_hoursUnits_le (i : Nat) : (digitSteps i).hoursUnits ≤ 9 := by
  rw [digitSteps_eq, finishDigits]
  split_ifs <;> simp only <;> omega

/-- Settles O17: the tens of the hour are at most 1 because the hour is at most 12. -/
theorem timedigitsClosedForm : Obligations.TimedigitsClosedForm := by
  intro i s hi
  have hhour := digitSteps_hour i.toNat
  obtain ⟨hminutesTens, hminutesUnits⟩ := digitSteps_minutes_le i.toNat
  exact ⟨_, exec_timedigits_of_lt (by omega) s, hhour, digitSteps_minute i.toNat, by omega,
    digitSteps_hoursUnits_le i.toNat, hminutesTens, hminutesUnits, by omega⟩

/-- The displayed digits determine the minute of the cycle: the hour is its quotient and the minute its remainder. -/
theorem digitSteps_injective {i j : Nat} (h : digitSteps i = digitSteps j) : i = j := by
  have hhour := digitSteps_hour i
  have hminute := digitSteps_minute i
  rw [h, digitSteps_hour] at hhour
  rw [h, digitSteps_minute] at hminute
  omega

/-- The minute of the cycle of this clock (spec/42_rom_word.md R87). -/
theorem minuteOfCycle_clock (c : Nat) : minuteOfCycle clock c = (c + 480) % 720 := rfl

/-- Settles O21: a shift by a constant modulo the cycle is injective on the cycle, and the digits determine the minute. -/
theorem displayedTimeIsContinuous : Obligations.DisplayedTimeIsContinuous := by
  simp only [Obligations.DisplayedTimeIsContinuous, minuteOfCycle_clock]
  refine ⟨fun c hc hne => by omega, by norm_num, by norm_num, fun c c' hc hc' h => ?_⟩
  have hminute := digitSteps_injective h
  omega

/-- The packed word of this clock: its default is 0, and its four positions are 0 to 3. -/
theorem packWord_clock (lLow lHigh lMin lHour : Bool) :
    packWord clock lLow lHigh lMin lHour = lLow.toNat + 2 * lHigh.toNat + 4 * lMin.toNat + 8 * lHour.toNat := by
  revert lLow lHigh lMin lHour
  decide

/-- ROMWORD under a legal configuration, at an address that its port holds. -/
theorem execUnder_romword_of_ok {cfg : Config} {a q : Nat} (ha : a < 2 ^ cfg.inputBits) (hq : romWord cfg a = .ok q)
    (s : State) : execUnder cfg (.romword a) s = .next { s with wires := s.wires ++ [.word q] } := by
  calc execUnder cfg (.romword a) s
      = withPort .romword cfg.inputBits a (deliver ((romWord cfg a).map .word) s) := rfl
    _ = .next (s.assign (.word q)) := by rw [withPort_of_lt ha, hq, Except.map, deliver_ok]

/-- The word of this clock from the bytes of its counter field. -/
theorem romWord_clock {a : Nat} (ha : a < 8192) {b : WordBytes} (hb : wordBytesOf clock (a / 8) = .ok b) :
    romWord clock a = .ok (packWord clock
      ((512 + 2 * b.feedbackLow.toNat).testBit (a % 8)) ((512 + 2 * b.feedbackHigh.toNat).testBit (a % 8))
      ((512 + 2 * b.minute.toNat).testBit (a % 8)) ((512 + 2 * b.hour.toNat).testBit (a % 8))) := by
  have hserial : gather clock.layout.serial a = a % 8 := gather_serial a
  have hcount : gather clock.layout.count a = a / 8 := (gather_count a).trans (Nat.mod_eq_of_lt (by omega))
  rw [romWord_eq (hcount ▸ hb) (by omega), hserial]

theorem packWord_clock_le (lLow lHigh lMin lHour : Bool) : packWord clock lLow lHigh lMin lHour ≤ 15 := by
  rw [packWord_clock]
  have := lLow.toNat_le
  have := lHigh.toNat_le
  have := lMin.toNat_le
  have := lHour.toNat_le
  omega

/-- Settles O22: four bits of weights 1, 2, 4 and 8 add up to 15 at most. -/
theorem romwordIsTotal : Obligations.RomwordIsTotal := by
  refine ⟨fun cfg a s hwf ha => ?_, fun a s ha => ?_⟩
  · obtain ⟨q, hq, hlt⟩ := romWord_ok (Config.wf_iff.1 hwf) a
    exact ⟨q, execUnder_romword_of_ok ha hq s, hlt⟩
  · exact ⟨_, exec_romword_of_ok ha (romWord_clock ha (wordBytesOf_eq clock (a / 8))) s, packWord_clock_le _ _ _ _⟩

/-- The packed-digit byte of two decimal digits. -/
theorem packDigits_ofNat {tens units : Nat} (htens : tens < 16) (hunits : units < 16) :
    (packDigits (BitVec.ofNat 4 tens) (BitVec.ofNat 4 units)).toNat = 16 * tens + units := by
  rw [packDigits_toNat, BitVec.toNat_ofNat, BitVec.toNat_ofNat]
  omega

/-- The four bytes of a counter field as numbers. -/
theorem wordBytesOf_toNat {cfg : Config} {c : Nat} (hc : c < 1024) {b : WordBytes} (hb : wordBytesOf cfg c = .ok b) :
    b.hour.toNat = 16 * ((minuteOfCycle cfg c / 60 + 1) / 10) + (minuteOfCycle cfg c / 60 + 1) % 10 ∧
    b.minute.toNat = 16 * (minuteOfCycle cfg c % 60 / 10) + minuteOfCycle cfg c % 60 % 10 ∧
    b.feedbackLow.toNat = (if c + 1 > 719 then 0 else c + 1) % 256 ∧
    b.feedbackHigh.toNat = (if c + 1 > 719 then 0 else c + 1) / 256 := by
  rw [wordBytesOf_eq] at hb
  obtain rfl := Except.ok.inj hb
  have hm := minuteOfCycle_lt cfg c
  have hhour := digitSteps_hour (minuteOfCycle cfg c)
  have hminute := digitSteps_minute (minuteOfCycle cfg c)
  have hunits := digitSteps_hoursUnits_le (minuteOfCycle cfg c)
  obtain ⟨htens', hunits'⟩ := digitSteps_minutes_le (minuteOfCycle cfg c)
  have hcount : (BitVec.ofNat 10 c).toNat = c := Nat.mod_eq_of_lt hc
  refine ⟨?_, ?_, ?_, ?_⟩
  · rw [packDigits_ofNat (by omega) (by omega)]
    omega
  · rw [packDigits_ofNat (by omega) (by omega)]
    omega
  · rw [feedbackLowByte_toNat, nextCount_toNat, hcount]
  · rw [feedbackHighByte_toNat, nextCount_toNat, hcount]

/-- Settles O23: each level is a binary digit of a frame word, and the bytes of the frames are those of the counter
field. -/
theorem romwordClosedForm : Obligations.RomwordClosedForm := by
  intro a s ha
  obtain ⟨b, hb⟩ := wordBytesOf_ok clock (a / 8)
  obtain ⟨hhour, hminute, hlow, hhigh⟩ := wordBytesOf_toNat (by omega) hb
  rw [exec_romword_of_ok ha (romWord_clock ha hb)]
  simp only [packWord_clock, Nat.toNat_testBit, hhour, hminute, hlow, hhigh, minuteOfCycle_clock]
  rfl

/-- Settles O28: the next count from 720 on is 0, and the frame of the byte 0 is 0 up to its stop bit at position 9. -/
theorem countersOutsideTheCycleFeedBackZero : Obligations.CountersOutsideTheCycleFeedBackZero := by
  intro a s ha hc
  obtain ⟨b, hb⟩ := wordBytesOf_ok clock (a / 8)
  obtain ⟨-, -, hlow, hhigh⟩ := wordBytesOf_toNat (by omega) hb
  rw [if_pos (by omega)] at hlow hhigh
  have hzero : (512 + 2 * 0).testBit (a % 8) = false := by
    rw [show 512 + 2 * 0 = 2 ^ 9 by norm_num, Nat.testBit_two_pow]
    exact decide_eq_false (by omega)
  have hword := romWord_clock ha hb
  rw [hlow, hhigh, Nat.zero_mod, Nat.zero_div, hzero] at hword
  obtain ⟨hbit0, hbit1, -⟩ := packWord_clock_testBit false false _ _
  exact ⟨_, exec_romword_of_ok ha hword s, hbit0, hbit1⟩

/-- The word depends on the two fields of the address only. -/
theorem romWord_congr {cfg : Config} {a a' : Nat} (hserial : gather cfg.layout.serial a = gather cfg.layout.serial a')
    (hcount : gather cfg.layout.count a = gather cfg.layout.count a') : romWord cfg a = romWord cfg a' := by
  rw [romWord, romWord, hserial, hcount]

/-- With the layout of spec/30_encoding.md R51 the fields are in bits 0 to 12 of the address. -/
theorem romWord_mod {cfg : Config} (hl : cfg.layout = clockLayout) (a : Nat) :
    romWord cfg a = romWord cfg (a % 8192) := by
  apply romWord_congr <;> rw [hl]
  · rw [gather_serial, gather_serial]
    omega
  · rw [gather_count, gather_count]
    omega

/-- Settles O27: the bytes of the image at an address are those of its word, and the address without its extra bits has
the same word. -/
theorem extraAddressBitsAreIgnored : Obligations.ExtraAddressBitsAreIgnored := by
  refine ⟨fun cfg a hwf hl ha => ?_, fun cfg s hout hin => stepUnder_of_defect (defect_of_inputBits hout hin) _ s⟩
  have hd := Config.wf_iff.1 hwf
  obtain ⟨q, hq, hlt⟩ := romWord_ok hd a
  have hq' : romWord cfg (a % 8192) = .ok q := (romWord_mod hl a).symm.trans hq
  have ha' : a % 8192 < cfg.wordCount := (Nat.mod_le a 8192).trans_lt ha
  refine ⟨⟨q, hq, hq'⟩, fun j hj => ?_⟩
  exact ⟨_, (readByte_imageCells hd ha hq hj).trans (emit_getElem? hlt hj),
    (readByte_imageCells hd ha' hq' hj).trans (emit_getElem? hlt hj)⟩

/-- Settles O29: the read gives the bytes that the word is emitted as, and the image holds the same at the offsets of the
address. -/
theorem everyAddressHoldsAWord : Obligations.EveryAddressHoldsAWord := by
  intro cfg a hwf ha
  have hd := Config.wf_iff.1 hwf
  obtain ⟨q, hq, hlt⟩ := romWord_ok hd a
  exact ⟨q, emit cfg q, hq, hlt, memRead_of_lt ha hq, emit_length cfg q, fun j hj => emit_getElem? hlt hj,
    fun j hj => readByte_imageCells hd ha hq hj⟩

end Sys2Proof.Machine
end

section
/-! Programs (spec/30_encoding.md section 10): what a completed program has done, where a faulting one ends, and the
expansion of ROMWORD line by line. -/

namespace Sys2Proof.Machine

/-- A line that completes has assigned one result and done nothing else. -/
theorem runLine_next {l : Line} {s t : State} (h : runLine l s = .next t) : ∃ r, t = s.assign r := by
  unfold runLine at h
  split at h
  · cases h
  · split at h
    · cases h
    · rw [exec_eq_execUnder] at h
      exact execUnder_next h

/-- The first line of lines that complete has completed, and the others from where it ended. -/
theorem runLines_cons_next {l : Line} {ls : List Line} {s t : State} (h : runLines (l :: ls) s = .next t) :
    ∃ s', runLine l s = .next s' ∧ runLines ls s' = .next t := by
  rw [runLines] at h
  cases hl : runLine l s with
  | next s' =>
    rw [hl] at h
    exact ⟨s', rfl, h⟩
  | fault f =>
    rw [hl] at h
    cases h
  | refused r =>
    rw [hl] at h
    cases h

/-- A line that completes is followed by the lines after it. -/
theorem runLines_cons {l : Line} {s s' : State} (h : runLine l s = .next s') (ls : List Line) :
    runLines (l :: ls) s = runLines ls s' := by
  rw [runLines, h]

theorem runLines_next {ls : List Line} {s t : State} (h : runLines ls s = .next t) :
    ∃ rs : List Result, rs.length = ls.length ∧ t = { s with wires := s.wires ++ rs } := by
  induction ls generalizing s with
  | nil =>
    obtain rfl : s = t := by injection h
    exact ⟨[], rfl, by rw [List.append_nil]⟩
  | cons l ls ih =>
    obtain ⟨s', hl, hls⟩ := runLines_cons_next h
    obtain ⟨r, rfl⟩ := runLine_next hl
    obtain ⟨rs, hlen, rfl⟩ := ih hls
    exact ⟨r :: rs, by rw [List.length_cons, List.length_cons, hlen], by simp [State.assign]⟩

/-- Lines that complete are followed by the lines after them. -/
theorem runLines_append {ls : List Line} {s t : State} (h : runLines ls s = .next t) (ls' : List Line) :
    runLines (ls ++ ls') s = runLines ls' t := by
  induction ls generalizing s with
  | nil =>
    obtain rfl : s = t := by injection h
    rfl
  | cons l ls ih =>
    obtain ⟨s', hl, hls⟩ := runLines_cons_next h
    rw [List.cons_append, runLines_cons hl, ih hls]

theorem runProgram_of_defect_none {ls : List Line} (h : programDefect ls = none) (s : State) :
    runProgram ls s = runLines ls s := by
  rw [runProgram, h]

/-- A program that completes has had every instance built. -/
theorem runProgram_next {ls : List Line} {s t : State} (h : runProgram ls s = .next t) : runLines ls s = .next t := by
  unfold runProgram at h
  split at h
  · cases h
  · exact h

/-- Settles O54: line after line, each completed one has added its result. -/
theorem programsAssignOneResultPerLine : Obligations.ProgramsAssignOneResultPerLine :=
  fun _ _ _ h => runLines_next (runProgram_next h)

/-- Settles O55: the lines before the faulting one complete, and its fault is the answer of it and the lines after it. -/
theorem programsEndAtAFault : Obligations.ProgramsEndAtAFault := by
  intro ls ls' l s t f hdefect h hl
  rw [runProgram_of_defect_none hdefect, runLines_append (runProgram_next h), runLines, hl]

/-! A line is evaluated on the wires before it: one rule per operation of the expansion. -/

/-- On the wires `ws` the line, whose instance is built, assigns `r`. -/
def Line.Gives (l : Line) (ws : List Result) (r : Result) : Prop :=
  lineDefect l = none ∧ ∀ s : State, s.wires = ws → runLine l s = .next { s with wires := ws ++ [r] }

/-- The lines, whose instances are built, assign the results of `rs` from the `k`-th on, on the wires that the results
before it are. -/
def LinesGive (rs : List Result) (k : Nat) (ls : List Line) : Prop :=
  programDefect ls = none ∧ ∀ s : State, s.wires = rs.take k → runLines ls s = .next { s with wires := rs }

theorem LinesGive.nil {rs : List Result} {k : Nat} (h : rs.length ≤ k) : LinesGive rs k [] := by
  refine ⟨rfl, fun s hs => ?_⟩
  rw [List.take_of_length_le h] at hs
  rw [runLines, ← hs]

theorem Line.Gives.cons {l : Line} {ls : List Line} {rs : List Result} {k : Nat} {r : Result} (h : l.Gives (rs.take k) r)
    (hr : rs[k]? = some r) (hs : LinesGive rs (k + 1) ls) : LinesGive rs k (l :: ls) := by
  obtain ⟨hdefect, hl⟩ := h
  obtain ⟨hdefects, hls⟩ := hs
  refine ⟨by rw [programDefect, List.findSome?_cons, hdefect]; exact hdefects, fun s hs => ?_⟩
  rw [runLines_cons (hl s hs), hls _ (by rw [List.take_add_one, hr]; rfl)]

/-- The rule that the rules of the operations come from. -/
theorem Line.gives_of_exec {l : Line} {ws : List Result} {i : Instr} {r : Result} (hdefect : lineDefect l = none)
    (hi : lineInstr ws l = .ok i) (he : ∀ s, exec i s = .next { s with wires := s.wires ++ [r] }) : l.Gives ws r := by
  refine ⟨hdefect, ?_⟩
  rintro s rfl
  rw [runLine, hdefect]
  simp only [hi, he]

theorem instanceDefect_of_wf {w : Nat} {p : Descriptor} (op : Operation) (h : descriptorWf w p = true) :
    instanceDefect op w p = none := by
  rw [instanceDefect, if_pos h]

theorem termPort_of_lt {ws : List Result} {t : Term} {n v : Nat} (op : Operation) (h : termValue ws t = .ok v)
    (hv : v < 2 ^ n) : termPort op n ws t = .ok (BitVec.ofNat n v) := by
  simp only [termPort, h, bind, Except.bind, if_pos hv]

theorem Line.gives_decode {ws : List Result} {w : Nat} {p : Descriptor} {t : Term} {v field : Nat}
    (hp : descriptorWf w p = true) (ht : termValue ws t = .ok v) (hv : v < 2 ^ w) (hfield : gather p v = field) :
    (Line.decode w p t).Gives ws (.val field) :=
  gives_of_exec (instanceDefect_of_wf .decode hp) (by simp only [lineInstr, ht, bind, Except.bind])
    (hfield ▸ exec_decode_of_wf hp hv)

theorem Line.gives_encode {ws : List Result} {w : Nat} {p : Descriptor} {t u : Term} {dst v : Nat}
    (hp : descriptorWf w p = true) (ht : termValue ws t = .ok dst) (hu : termValue ws u = .ok v) (hdst : dst < 2 ^ w) :
    (Line.encode w p t u).Gives ws (.dstOut (scatter p dst v)) :=
  gives_of_exec (instanceDefect_of_wf .encode hp) (by simp only [lineInstr, ht, hu, bind, Except.bind])
    (exec_encode_of_wf hp hdst v)

theorem Line.gives_framebit {ws : List Result} {t u : Term} {byte : Byte} {pos : Nat}
    (ht : termValue ws t = .ok byte.toNat) (hu : termValue ws u = .ok pos) (hpos : pos ≤ 9) :
    (Line.framebit t u).Gives ws (.bit ((512 + 2 * byte.toNat).testBit pos)) := by
  have hport : (BitVec.ofNat 4 pos).toNat = pos := Nat.mod_eq_of_lt (by omega)
  refine gives_of_exec (i := .framebit byte (BitVec.ofNat 4 pos)) rfl ?_ (exec_framebit_of_ok ?_)
  · simp only [lineInstr, termPort_of_lt .framebit ht byte.isLt,
      termPort_of_lt .framebit hu (show pos < 2 ^ 4 by omega), BitVec.ofNat_toNat, BitVec.setWidth_eq, bind, Except.bind]
  · rw [hport, frameBit_of_le byte hpos]

theorem Line.gives_timedigits {ws : List Result} {t : Term} {i : Nat} (ht : termValue ws t = .ok i) (hi : i < 720) :
    (Line.timedigits t).Gives ws (.digits (digitSteps i)) := by
  have hport : (BitVec.ofNat 10 i).toNat = i := Nat.mod_eq_of_lt (by omega)
  refine gives_of_exec (i := .timedigits (BitVec.ofNat 10 i)) rfl ?_ fun s => ?_
  · simp only [lineInstr, termPort_of_lt .timedigits ht (show i < 2 ^ 10 by omega), bind, Except.bind]
  · rw [exec_timedigits_of_lt (by rwa [hport]), hport]

theorem Line.gives_bcdpack {ws : List Result} {t u : Term} {tens units : Nat} (ht : termValue ws t = .ok tens)
    (hu : termValue ws u = .ok units) (htens : tens < 2 ^ 4) (hunits : units < 2 ^ 4) :
    (Line.bcdpack t u).Gives ws (.byte (packDigits (BitVec.ofNat 4 tens) (BitVec.ofNat 4 units))) :=
  gives_of_exec rfl
    (by simp only [lineInstr, termPort_of_lt .bcdpack ht htens, termPort_of_lt .bcdpack hu hunits, bind, Except.bind])
    (exec_bcdpack _ _)

theorem Line.gives_nextcount {ws : List Result} {t : Term} {c : Nat} (ht : termValue ws t = .ok c) (hc : c < 2 ^ 10) :
    (Line.nextcount t).Gives ws (.count (nextCount (BitVec.ofNat 10 c))) :=
  gives_of_exec rfl (by simp only [lineInstr, termPort_of_lt .nextcount ht hc, bind, Except.bind]) (exec_nextcount _)

/-! The expansion. -/

/-- The cut of the counter as a DECODE (spec/30_encoding.md R56, spec/42_rom_word.md R89). -/
theorem gather_feedbackLow (n : BitVec 10) : gather [0, 1, 2, 3, 4, 5, 6, 7] n.toNat = (feedbackLowByte n).toNat := by
  rw [feedbackLowByte_toNat]
  exact (gather_range' 0 8 n.toNat).trans (by omega)

theorem gather_feedbackHigh (n : BitVec 10) : gather [8, 9] n.toNat = (feedbackHighByte n).toNat := by
  rw [feedbackHighByte_toNat]
  exact (gather_range' 8 2 n.toNat).trans (by omega)

/-- What the sixteen lines assign: the fields of the address, the digits and their bytes, the next count and its bytes, the
four levels, and the word as it fills up. -/
def expansionResults (cfg : Config) (a : Nat) : List Result :=
  let d := digitSteps (minuteOfCycle cfg (a / 8 % 1024))
  let hour := packDigits (BitVec.ofNat 4 d.hoursTens) (BitVec.ofNat 4 d.hoursUnits)
  let minute := packDigits (BitVec.ofNat 4 d.minutesTens) (BitVec.ofNat 4 d.minutesUnits)
  let n := nextCount (BitVec.ofNat 10 (a / 8 % 1024))
  let level (byte : Byte) : Bool := (512 + 2 * byte.toNat).testBit (a % 8)
  let q1 := scatter [0] (trunc cfg.outputBits cfg.defaultOutput) (level (feedbackLowByte n)).toNat
  let q2 := scatter [1] q1 (level (feedbackHighByte n)).toNat
  let q3 := scatter [2] q2 (level minute).toNat
  [.val (a % 8), .val (a / 8 % 1024), .digits d, .byte hour, .byte minute, .count n,
    .val (feedbackLowByte n).toNat, .val (feedbackHighByte n).toNat,
    .bit (level hour), .bit (level minute), .bit (level (feedbackLowByte n)), .bit (level (feedbackHighByte n)),
    .dstOut q1, .dstOut q2, .dstOut q3, .dstOut (scatter [3] q3 (level hour).toNat)]

/-- The expansion line by line, each line by the rule of its operation. -/
theorem wordProgram_gives {cfg : Config} (hd : cfg.defect = none) (hl : cfg.layout = clockLayout) {a : Nat}
    (ha : a < 2 ^ cfg.inputBits) : LinesGive (expansionResults cfg a) 0 (wordProgram cfg a) := by
  obtain ⟨-, -, ⟨hserial, -⟩, ⟨hcount, -⟩, ⟨hlow, -⟩, ⟨hhigh, -⟩, ⟨hmin, -⟩, ⟨hhour, -⟩⟩ := defect_none_iff.1 hd
  rw [hl] at hserial hcount hlow hhigh hmin hhour
  have hm := minuteOfCycle_lt cfg (a / 8 % 1024)
  have hhours := digitSteps_hours_le hm
  have hunits := digitSteps_hoursUnits_le (minuteOfCycle cfg (a / 8 % 1024))
  obtain ⟨hminutesTens, hminutesUnits⟩ := digitSteps_minutes_le (minuteOfCycle cfg (a / 8 % 1024))
  have hc : a / 8 % 1024 < 2 ^ 10 := Nat.mod_lt _ (by norm_num)
  have hpos : a % 8 ≤ 9 := by omega
  have hq0 : trunc cfg.outputBits cfg.defaultOutput < 2 ^ cfg.outputBits := Nat.mod_lt _ (Nat.two_pow_pos _)
  exact
    (Line.gives_decode hserial rfl ha (gather_serial a)).cons rfl <|
    (Line.gives_decode hcount rfl ha (gather_count a)).cons rfl <|
    (Line.gives_timedigits rfl hm).cons rfl <|
    (Line.gives_bcdpack rfl rfl (by omega) (by omega)).cons rfl <|
    (Line.gives_bcdpack rfl rfl (by omega) (by omega)).cons rfl <|
    (Line.gives_nextcount rfl hc).cons rfl <|
    (Line.gives_decode (by decide) rfl (BitVec.isLt _) (gather_feedbackLow _)).cons rfl <|
    (Line.gives_decode (by decide) rfl (BitVec.isLt _) (gather_feedbackHigh _)).cons rfl <|
    (Line.gives_framebit rfl rfl hpos).cons rfl <|
    (Line.gives_framebit rfl rfl hpos).cons rfl <|
    (Line.gives_framebit rfl rfl hpos).cons rfl <|
    (Line.gives_framebit rfl rfl hpos).cons rfl <|
    (Line.gives_encode hlow rfl rfl hq0).cons rfl <|
    (Line.gives_encode hhigh rfl rfl (scatter_lt_of_wf hlow hq0 _)).cons rfl <|
    (Line.gives_encode hmin rfl rfl (scatter_lt_of_wf hhigh (scatter_lt_of_wf hlow hq0 _) _)).cons rfl <|
    (Line.gives_encode hhour rfl rfl
      (scatter_lt_of_wf hmin (scatter_lt_of_wf hhigh (scatter_lt_of_wf hlow hq0 _) _) _)).cons rfl <|
    LinesGive.nil le_rfl

/-- The last of the results of the expansion is the word that ROMWORD gives. -/
theorem romWord_expansion {cfg : Config} (hl : cfg.layout = clockLayout) (a : Nat) :
    ∃ q, (expansionResults cfg a)[15]? = some (.dstOut q) ∧ romWord cfg a = .ok q := by
  have hserial : gather cfg.layout.serial a = a % 8 := by rw [hl, gather_serial]
  have hcount : gather cfg.layout.count a = a / 8 % 1024 := by rw [hl, gather_count]
  refine ⟨_, rfl, ?_⟩
  rw [romWord_eq (wordBytesOf_eq cfg _) (by omega), hserial, hcount, packWord, hl]
  rfl

/-- Settles O24: the instances of the expansion are built, its lines run, and the last result is the word. -/
theorem romwordIsItsExpansion : Obligations.RomwordIsItsExpansion := by
  intro cfg a s t hwf hl ha hs
  obtain ⟨hdefect, hrun⟩ := wordProgram_gives (Config.wf_iff.1 hwf) hl ha
  obtain ⟨q, hlast, hq⟩ := romWord_expansion hl a
  exact ⟨expansionResults cfg a, q, (runProgram_of_defect_none hdefect s).trans (hrun s hs), rfl, hlast,
    execUnder_romword_of_ok ha hq t⟩

end Sys2Proof.Machine
end
